-- ==== Sys2Proof/Word.lean ====
section
/-! DEFINITION. The word types of the machine: a byte, a 24-bit address, a 16-bit register and the 72-bit
instruction word (00_scope.md section 4, 30_encoding.md R50). All values are unsigned. -/

namespace Sys2Proof

/-- The addressable unit, and the only datum a program moves (20_memory.md R30). -/
abbrev Byte := BitVec 8

/-- A 24-bit byte address: the program counter and the three fields of an instruction (10_state.md R12). -/
abbrev Addr := BitVec 24

/-- The width of the keyboard and audio registers and of the `keys` input (00_scope.md section 5). -/
abbrev Half := BitVec 16

/-- The nine bytes of an instruction as one number, byte 0 in bits 71 to 64 (30_encoding.md R50). -/
abbrev InstrWord := BitVec 72

end Sys2Proof
end

