-- ==== Sys2Proof/Config.lean ====
section
/-! DEFINITION. What is fixed of the hardware, its two open parameters with the spec's defaults, and the free
values: what the spec leaves without a value (00_scope.md R4, 10_state.md R24). -/

namespace Sys2Proof

/-- Number of addressable bytes, 2^24 (00_scope.md R4 `MEM_SIZE`). -/
def Config.memSize : Nat := 16777216

/-- Number of pad bytes after the last address (00_scope.md R4 `PAD_SIZE`). -/
def Config.padSize : Nat := 8

/-- Bytes of one instruction (00_scope.md R4 `INSTR_BYTES`). -/
def Config.instrBytes : Nat := 9

/-- Bytes of one field of an instruction (00_scope.md R4 `FIELD_BYTES`). -/
def Config.fieldBytes : Nat := 3

/-- First byte of the keyboard register (00_scope.md R4 `KEY_ADDR`). -/
def Config.keyAddr : Nat := 0

/-- First byte of the reset vector (00_scope.md R4 `VEC_ADDR`). -/
def Config.vecAddr : Nat := 2

/-- The plane-base byte (00_scope.md R4 `GFX_ADDR`). -/
def Config.gfxAddr : Nat := 5

/-- First byte of the audio register (00_scope.md R4 `AUD_ADDR`). -/
def Config.audAddr : Nat := 6

/-- Columns of the pixel grid (00_scope.md R4 `SCREEN_W`). -/
def Config.screenW : Nat := 256

/-- Rows of the pixel grid (00_scope.md R4 `SCREEN_H`). -/
def Config.screenH : Nat := 256

/-- Number of meaningful palette indices, the first of the 256 (42_io_decoder.md R92). -/
def Config.paletteEntries : Nat := 216

/-- The two open parameters of the hardware (00_scope.md R4, 92_eei_decisions.md D7 and D8). They stand in State,
which no step writes them in, so that a claim about every state holds for every value of them.
DESIGN CHOICE, safe: log entry 3. -/
structure Params where
  /-- `N_STEPS`, the instruction steps of one frame; any natural number (41_frame_sequencer.md R73). -/
  nSteps : Nat
  /-- `JUMP_AFTER_COPY`: whether the jump field is read after the byte is written (40_copy_jump.md R62). -/
  jumpAfterCopy : Bool
  deriving DecidableEq, Repr

/-- The defaults the spec takes: 65536 steps, jump field read before the write (00_scope.md R4). -/
def Params.default : Params := { nSteps := 65536, jumpAfterCopy := false }

/-- The value `pc` holds after the n-th LOAD: none is stated, so it is an arbitrary draw
(10_state.md R24, 93_implementation_defined.md U16). DESIGN CHOICE, safe: log entry 1. -/
opaque Config.pcAfterLoad : Nat → Addr

/-- What the `gfx_page` output holds after the n-th LOAD, before a frame has ended: not valid
(10_state.md R24), so an arbitrary draw. DESIGN CHOICE, safe: log entry 1. -/
opaque Config.gfxPageAfterLoad : Nat → Byte

/-- What the `audio_reg` output holds after the n-th LOAD, before a frame has ended: not valid
(10_state.md R24), so an arbitrary draw. DESIGN CHOICE, safe: log entry 1. -/
opaque Config.audioRegAfterLoad : Nat → Half

end Sys2Proof
end

