-- ==== Sys2Proof/Syntax.lean ====
section
/-! DEFINITION. The instruction set: one instruction, and the spec's assembler lines for writing programs
(30_encoding.md R50, R56). -/

namespace Sys2Proof

/-- The instructions of spec/opcode_table.json: its one row, `BBJ source, destination, jump`. There is no opcode,
register, mode or immediate field (30_encoding.md R50); every value of every field is an instruction (R52). -/
inductive Instr where
  /-- `BBJ`: copy the byte at `source` to `destination`, continue at `jump` (40_copy_jump.md R60). -/
  | bbj (source destination jump : Addr)
  deriving DecidableEq, Repr

/-- An operand as written in the spec's assembler notation: a number, or a label that names an address
(30_encoding.md R56). -/
inductive SourceOperand where
  /-- A number, normally six hexadecimal digits. -/
  | number (n : Nat)
  /-- A label. -/
  | label (name : String)
  deriving DecidableEq, Repr

/-- What a line of the assembler notation places. The notation has no pseudo-instruction (30_encoding.md R56, R57). -/
inductive SourceItem where
  /-- `BBJ <source>, <destination>, <jump>`. -/
  | bbj (source destination jump : SourceOperand)
  /-- `DB <byte>, <byte>, ...`. -/
  | db (bytes : List Nat)
  deriving DecidableEq, Repr

/-- A line: the labels that name its address, the optional `<address>:` it is placed at, and what it places; without an
address it follows the line before it (30_encoding.md R56). -/
structure SourceLine where
  labels : List String
  address : Option Nat
  item : SourceItem
  deriving DecidableEq, Repr

end Sys2Proof
end

