-- ==== Sys2Proof/WellFormed.lean ====
section
/-! DEFINITION. What is well formed: every instruction (no triple is ill formed, 30_encoding.md R52, R53 and
91_not_in_source.md N14), an assembler operand that fits its field, a program image that fits memory. -/

namespace Sys2Proof

/-- Every instruction is well formed: there is no illegal, reserved or custom encoding, and every 24-bit value is a
valid source, destination and jump (30_encoding.md R53, 20_memory.md R41). -/
def Instr.wf : Instr → Bool
  | .bbj _ _ _ => true

/-- An assembler operand is a number in [0, 2^24) (30_encoding.md R56). -/
def operandFits (n : Nat) : Bool := n < Config.memSize

/-- A `DB` byte is a number in [0, 256). -/
def byteFits (n : Nat) : Bool := n < 256

/-- The bytes of a `DB` line are well formed when each fits a byte (30_encoding.md R56). -/
def dbFits (bytes : List Nat) : Bool := bytes.all byteFits

/-- A program image fits when it has at most 2^24 bytes (70_reset_and_hazards.md R115). -/
def imageFits (image : List Byte) : Bool := image.length ≤ Config.memSize

end Sys2Proof
end

