-- ==== Sys2Proof/Decode.lean ====
section
/-! DEFINITION. Decoding and encoding: byte order, the 72-bit word, the total decoder, the encoder and the assembler
(30_encoding.md R50 to R56, 20_memory.md R37). -/

namespace Sys2Proof

/-- Two bytes as a 16-bit number, the byte of the lower address first and most significant (20_memory.md R35, R37). -/
def be16 (high low : Byte) : Half := high ++ low

/-- Three bytes as a 24-bit number, the byte of the lowest address first and most significant
(20_memory.md R34, R37). -/
def be24 (high middle low : Byte) : Addr := high ++ middle ++ low

/-- The instruction word `I` of nine bytes, byte 0 in its highest bits (30_encoding.md R50). -/
def instrWord (b0 b1 b2 b3 b4 b5 b6 b7 b8 : Byte) : InstrWord :=
  b0 ++ b1 ++ b2 ++ b3 ++ b4 ++ b5 ++ b6 ++ b7 ++ b8

/-- The instruction a word is: `source = I[71:48]`, `destination = I[47:24]`, `jump = I[23:0]`. It cannot fail
(30_encoding.md R50, R52). -/
def decodeWord (word : InstrWord) : Instr :=
  .bbj (word.extractLsb' 48 24) (word.extractLsb' 24 24) (word.extractLsb' 0 24)

/-- Why bytes are no instruction: only a list of fewer than nine, which no fetch presents (10_state.md R15).
DESIGN CHOICE, safe: log entry 9. -/
inductive DecodeError where
  /-- Fewer than nine bytes were given. -/
  | truncated (available : Nat)
  deriving DecidableEq, Repr

/-- Decode the instruction at the front of a list of bytes and give the rest of the list back. Nine bytes always
decode; fewer are refused by name (30_encoding.md R52, R54). -/
def decode : List Byte → Except DecodeError (Instr × List Byte)
  | b0 :: b1 :: b2 :: b3 :: b4 :: b5 :: b6 :: b7 :: b8 :: rest =>
    .ok (decodeWord (instrWord b0 b1 b2 b3 b4 b5 b6 b7 b8), rest)
  | bytes => .error (.truncated bytes.length)

/-- The three bytes of a 24-bit field, most significant first (30_encoding.md R50). -/
def fieldBytes (field : Addr) : List Byte :=
  [field.extractLsb' 16 8, field.extractLsb' 8 8, field.extractLsb' 0 8]

/-- The nine bytes of an instruction: source, destination, jump (30_encoding.md R50). -/
def encode : Instr → List Byte
  | .bbj source destination jump => fieldBytes source ++ fieldBytes destination ++ fieldBytes jump

/-- How many bytes an item of the assembler notation places (30_encoding.md R50, R56). -/
def itemLength : SourceItem → Nat
  | .bbj _ _ _ => Config.instrBytes
  | .db bytes => bytes.length

/-- The address a line is placed at, `next` being the first one after the line before it (30_encoding.md R56). That a
line without an address stands there is a DESIGN CHOICE, safe: log entry 11. -/
def lineAddress (next : Nat) (line : SourceLine) : Nat := line.address.getD next

/-- The addresses the labels of a program name, its first line placed at `next` unless it says otherwise
(30_encoding.md R56). -/
def labelTable (next : Nat) : List SourceLine → List (String × Nat)
  | [] => []
  | line :: rest =>
    line.labels.map (fun name => (name, lineAddress next line)) ++
      labelTable (lineAddress next line + itemLength line.item) rest

/-- The field an operand stands for; none for a label nothing defines or a number of 2^24 or more; of two definitions of
a label the first counts (30_encoding.md R56). DESIGN CHOICE, safe: log entry 11. -/
def operandField (table : List (String × Nat)) : SourceOperand → Option Addr
  | .number n => if operandFits n then some (BitVec.ofNat 24 n) else none
  | .label name =>
    match table.lookup name with
    | some n => if operandFits n then some (BitVec.ofNat 24 n) else none
    | none => none

/-- The bytes an item stands for (30_encoding.md R50, R56). -/
def itemBytes (table : List (String × Nat)) : SourceItem → Option (List Byte)
  | .bbj source destination jump =>
    match operandField table source, operandField table destination, operandField table jump with
    | some s, some d, some j => some (encode (.bbj s d j))
    | _, _, _ => none
  | .db bytes => if dbFits bytes then some (bytes.map (BitVec.ofNat 8)) else none

/-- The bytes of each line with the address they are placed at, labels looked up in `table` (30_encoding.md R56). The
spec bounds operands only: an address of 2^24 or more, bytes that run past 2^24, and lines that overlap are emitted as
written, without a check. DESIGN CHOICE, safe: log entry 11. -/
def assembleLines (table : List (String × Nat)) (next : Nat) : List SourceLine → Option (List (Nat × List Byte))
  | [] => some []
  | line :: rest =>
    match itemBytes table line.item,
      assembleLines table (lineAddress next line + itemLength line.item) rest with
    | some bytes, some more => some ((lineAddress next line, bytes) :: more)
    | _, _ => none

/-- A program in the assembler notation as bytes with their addresses; none when an operand does not fit or a label is
not defined (30_encoding.md R56). DESIGN CHOICE, safe: log entry 11. -/
def assemble (program : List SourceLine) : Option (List (Nat × List Byte)) :=
  assembleLines (labelTable 0 program) 0 program

/-- The nine bytes, in memory order, of an instruction whose 72-bit word has the `nbits` low bits of `w`: the table
numbers bit 71 as the top bit of the byte at pc and bit 0 as the low bit of the byte at pc+8
(opcode_table.json `bit_numbering`). -/
def tableWordBytes (nbits w : Nat) : List Byte :=
  let word : InstrWord := BitVec.ofNat 72 (w % 2 ^ nbits)
  [word.extractLsb' 64 8, word.extractLsb' 56 8, word.extractLsb' 48 8, word.extractLsb' 40 8,
    word.extractLsb' 32 8, word.extractLsb' 24 8, word.extractLsb' 16 8, word.extractLsb' 8 8,
    word.extractLsb' 0 8]

/-- What the decoder reads from an instruction whose bits are `w`, numbered as opcode_table.json numbers them; none
for a width no instruction has. -/
def decodeTableWord (nbits w : Nat) : Option Instr :=
  if nbits ≤ 8 * Config.instrBytes then
    match decode (tableWordBytes nbits w) with
    | .ok (i, _) => some i
    | .error _ => none
  else none

end Sys2Proof
end

