-- ==== Sys2Proof/Machine/State.lean ====
section
/-! DEFINITION. The state of the machine as plain data (10_state.md R10), the host's moves, the named reasons a step
can stop, and the state after power-on. -/

namespace Sys2Proof.Machine

/-- The memory array `MEM`: a cell for each address whose byte is not the one an unlisted address reads as, addresses
strictly rising. An unlisted address reads as 0x00, the value the spec gives for memory outside the image
(10_state.md R24). `Memory.wf` says the form holds. -/
abbrev Memory := List Host.Cell

/-- The two phases of the frame sequencer; there is no third (10_state.md R22, 41_frame_sequencer.md R74). -/
inductive Phase where
  /-- Between frames: the core holds all state. -/
  | idle
  /-- Inside a frame: the core executes steps. -/
  | run
  deriving DecidableEq, Repr

/-- What the host can do to the state through the input ports, each while the core is idle
(10_state.md R25, 41_frame_sequencer.md R82). -/
inductive HostMove where
  /-- Raise `frame_go`, presenting these `keys`. -/
  | frameGo (keys : Half)
  /-- Present a program image at the `load` port. -/
  | load (image : List Byte)
  deriving DecidableEq, Repr

/-- Everything that holds a value between two steps (10_state.md R10), the two parameters, and the host's moves still
to come. -/
structure State where
  /-- `N_STEPS` and `JUMP_AFTER_COPY`; no step changes them (00_scope.md R4). DESIGN CHOICE, safe: log entry 3. -/
  params : Params
  /-- `MEM`, the I/O registers at addresses 0 to 7 among it (10_state.md R10, R17). -/
  mem : Memory
  /-- The program counter (10_state.md R12). -/
  pc : Addr
  /-- Idle or running (10_state.md R22). -/
  phase : Phase
  /-- Steps already executed in the current frame (10_state.md R22, 41_frame_sequencer.md R73). -/
  cnt : Nat
  /-- The `gfx_page` output register (41_frame_sequencer.md R77). -/
  gfxPage : Byte
  /-- The `audio_reg` output register (41_frame_sequencer.md R77). -/
  audioReg : Half
  /-- The model's own field: the moves the host will make, earliest first; the core takes the first when it is idle.
  DESIGN CHOICE, unsafe: log entry 2. -/
  host : List HostMove
  /-- The model's own field: how many LOADs came before, which the free values after a LOAD are drawn with.
  DESIGN CHOICE, safe: log entry 1. -/
  loads : Nat
  deriving DecidableEq, Repr

/-- Why a step faults. No instruction ever does (60_exceptions.md R100). -/
inductive Fault where
  /-- Raised by LOAD for an image of more than 2^24 bytes, whose length it carries: nothing is built
  (60_exceptions.md R102, 70_reset_and_hazards.md R115). Safe: the machine stops where the spec says startup is
  aborted. -/
  | imageTooLarge (length : Nat)
  deriving DecidableEq, Repr

/-- Why a step is refused. -/
inductive Refusal where
  /-- Raised by `exec` for an instruction without a meaning. Safe: nothing can be proved of such a step. No arm raises
  it: the one instruction has its meaning. -/
  | notModelled (mnemonic : String)
  deriving DecidableEq, Repr

/-- The machine after power-on with an empty image, before any host move: memory all 0x00, idle, no step counted
(10_state.md R24, 70_reset_and_hazards.md R115). The program counter and the two outputs hold free values: the spec
gives none (log entry 1). The parameters have the spec's defaults. DEDUCED, safe: log entry 7. -/
def State.reset : State where
  params := Params.default
  mem := []
  pc := Config.pcAfterLoad 0
  phase := .idle
  cnt := 0
  gfxPage := Config.gfxPageAfterLoad 0
  audioReg := Config.audioRegAfterLoad 0
  host := []
  loads := 0

end Sys2Proof.Machine
end

