-- ==== Sys2Proof/Machine/Ops.lean ====
section
/-! DEFINITION. The named operations over memory (20_memory.md R31 to R35) and over the fields of State. There is no
exception to take and none to return from: no instruction raises one, no interrupt exists, nothing is saved
(60_exceptions.md R100, R103, R105, R106). -/

namespace Sys2Proof.Machine

/-- What a byte of memory that no cell lists reads as: 0x00 (10_state.md R24, 70_reset_and_hazards.md R115). -/
def unlistedByte : Byte := 0#8

/-- The byte listed for an address, or what an unlisted address reads as. -/
def cellsRead : Memory → Nat → Byte
  | [], _ => unlistedByte
  | (b, v) :: rest, a => if a = b then v else cellsRead rest a

/-- List a byte for an address, keeping addresses in rising order. -/
def cellsPut : Memory → Nat → Byte → Memory
  | [], a, v => [(a, v)]
  | (b, w) :: rest, a, v =>
    if a < b then (a, v) :: (b, w) :: rest
    else if a = b then (a, v) :: rest
    else (b, w) :: cellsPut rest a v

/-- Take an address off the list. -/
def cellsDrop : Memory → Nat → Memory
  | [], _ => []
  | (b, w) :: rest, a => if a = b then cellsDrop rest a else (b, w) :: cellsDrop rest a

/-- Whether cells are in canonical form from address `low` on: strictly rising, inside memory, none that lists what an
unlisted address reads as. -/
def cellsWf : Nat → Memory → Bool
  | _, [] => true
  | low, (a, v) :: rest =>
    decide (low ≤ a) && decide (a < Config.memSize) && decide (v ≠ unlistedByte) && cellsWf (a + 1) rest

/-- The canonical form of memory. -/
def Memory.wf (m : Memory) : Bool := cellsWf 0 m

/-- `MemRead(a, 1)`: the byte at an address of memory, 0x00 at an address of the pad. Addresses above the pad are never
presented (20_memory.md R32; the decoder of R49 selects zero by bit 24). DEDUCED, safe: log entry 9. -/
def memRead (m : Memory) (a : Nat) : Byte :=
  if a < Config.memSize then cellsRead m a else 0#8

/-- `MemWrite(a, 1, v)`: that byte changes, every other stays. The pad is never written
(20_memory.md R31, R33). -/
def memWrite (m : Memory) (a : Nat) (v : Byte) : Memory :=
  if a < Config.memSize then
    if v = unlistedByte then cellsDrop m a else cellsPut m a v
  else m

/-- `MemRead(a, 2)`, big-endian (20_memory.md R35). -/
def memRead2 (m : Memory) (a : Nat) : Half := be16 (memRead m a) (memRead m (a + 1))

/-- `MemRead(a, 3)`, big-endian, no wrap-around (20_memory.md R34). -/
def memRead3 (m : Memory) (a : Nat) : Addr := be24 (memRead m a) (memRead m (a + 1)) (memRead m (a + 2))

/-- `MemWrite(a, 2, v)`, big-endian (20_memory.md R35). -/
def memWrite2 (m : Memory) (a : Nat) (v : Half) : Memory :=
  memWrite (memWrite m a (v.extractLsb' 8 8)) (a + 1) (v.extractLsb' 0 8)

/-- Write a list of bytes from an address on. -/
def memWriteList (m : Memory) (a : Nat) : List Byte → Memory
  | [] => m
  | v :: rest => memWriteList (memWrite m a v) (a + 1) rest

/-- The memory of a program image placed from address `a` on, 0x00 after it (70_reset_and_hazards.md R115). -/
def imageCells (a : Nat) : List Byte → Memory
  | [] => []
  | v :: rest => if v = unlistedByte then imageCells (a + 1) rest else (a, v) :: imageCells (a + 1) rest

/-- Replace memory. -/
def State.setMem (s : State) (m : Memory) : State := { s with mem := m }

/-- Write the program counter: `pc <- target` (00_scope.md section 5). -/
def State.setPc (s : State) (target : Addr) : State := { s with pc := target }

/-- Write the phase. -/
def State.setPhase (s : State) (p : Phase) : State := { s with phase := p }

/-- Write the step counter. -/
def State.setCnt (s : State) (n : Nat) : State := { s with cnt := n }

/-- Write the two output registers. -/
def State.setOutputs (s : State) (page : Byte) (audio : Half) : State :=
  { s with gfxPage := page, audioReg := audio }

/-- Replace the host's moves still to come. -/
def State.setHost (s : State) (moves : List HostMove) : State := { s with host := moves }

end Sys2Proof.Machine
end

