-- ==== Sys2Proof/Machine/Operands.lean ====
section
/-! DEFINITION. The operand forms of the one instruction: absolute addresses, one byte, nothing added or extended
(40_copy_jump.md R66, 30_encoding.md R51). -/

namespace Sys2Proof.Machine

/-- The byte an absolute source operand names: `MemRead(source, 1)` (40_copy_jump.md R66). -/
def loadByte (source : Addr) (s : State) : Byte := memRead s.mem source.toNat

/-- Store a byte at an absolute destination operand: `MemWrite(destination, 1, v)` (40_copy_jump.md R66). -/
def storeByte (destination : Addr) (v : Byte) (s : State) : State :=
  s.setMem (memWrite s.mem destination.toNat v)

/-- The jump field of the instruction at the program counter, as memory holds it: `MemRead(pc + 6, 3)`
(30_encoding.md R51). -/
def storedJump (s : State) : Addr := memRead3 s.mem (s.pc.toNat + 6)

end Sys2Proof.Machine
end

