-- ==== Sys2Proof/Machine/CopyJump.lean ====
section
/-! DEFINITION. The meaning of the one instruction, BBJ (40_copy_jump.md). -/

namespace Sys2Proof.Machine

/-- The address a step continues at: the jump field as it was read before the byte was written; with
`JUMP_AFTER_COPY`, the field as memory holds it after the write (40_copy_jump.md R60, R62).
`s` is the state before the step, `t` the state with the byte written. DEDUCED, safe: log entry 10. -/
def jumpTarget (jump : Addr) (s t : State) : Addr :=
  if s.params.jumpAfterCopy then storedJump t else jump

/-- Copy one byte and jump: the byte is read, then written, then the program counter takes the jump target
(40_copy_jump.md R60). -/
def copyAndJump (source destination jump : Addr) (s : State) : State :=
  let t := storeByte destination (loadByte source s) s
  t.setPc (jumpTarget jump s t)

/-- `BBJ source, destination, jump` (40_copy_jump.md R60). It writes one byte of memory and the program counter; no
operand faults (R60, 20_memory.md R41). -/
def execBbj (source destination jump : Addr) (s : State) : Host.Outcome State Fault Refusal :=
  .next (copyAndJump source destination jump s)

end Sys2Proof.Machine
end

