-- ==== Sys2Proof/Machine/Fetch.lean ====
section
/-! DEFINITION. Instruction fetch: nine bytes from the program counter on, through the same `MemRead` as data
(20_memory.md R38, R46), and where the host's probe places an instruction. -/

namespace Sys2Proof.Machine

/-- The nine bytes at `pc` to `pc + 8`; the sums are not reduced, so a fetch near the top of memory reads the pad
(10_state.md R14, 30_encoding.md R55). -/
def fetchBytes (s : State) : List Byte :=
  [memRead s.mem s.pc.toNat, memRead s.mem (s.pc.toNat + 1), memRead s.mem (s.pc.toNat + 2),
    memRead s.mem (s.pc.toNat + 3), memRead s.mem (s.pc.toNat + 4), memRead s.mem (s.pc.toNat + 5),
    memRead s.mem (s.pc.toNat + 6), memRead s.mem (s.pc.toNat + 7), memRead s.mem (s.pc.toNat + 8)]

/-- The instruction word `I` at the program counter (30_encoding.md R50). -/
def fetchWord (s : State) : InstrWord :=
  instrWord (memRead s.mem s.pc.toNat) (memRead s.mem (s.pc.toNat + 1)) (memRead s.mem (s.pc.toNat + 2))
    (memRead s.mem (s.pc.toNat + 3)) (memRead s.mem (s.pc.toNat + 4)) (memRead s.mem (s.pc.toNat + 5))
    (memRead s.mem (s.pc.toNat + 6)) (memRead s.mem (s.pc.toNat + 7)) (memRead s.mem (s.pc.toNat + 8))

/-- The instruction at the program counter. Every program counter has a nine-byte window and every window decodes, so
this cannot fail (10_state.md R15, 30_encoding.md R52). -/
def fetchInstr (s : State) : Instr := decodeWord (fetchWord s)

/-- Where the probe of the host places an instruction: at the program counter of a running machine whose window lies
in memory whole, else at 0x000008, the first byte after the I/O block. DESIGN CHOICE, safe: log entry 6. -/
def probePc (s : State) : Addr :=
  match s.phase with
  | .run => if s.pc.toNat + Config.instrBytes ≤ Config.memSize then s.pc else 8#24
  | .idle => 8#24

/-- A step budget that leaves at least one step: the machine's own, or the default where it is 0 (log entry 6). -/
def probeParams (p : Params) : Params :=
  if p.nSteps = 0 then { p with nSteps := Params.default.nSteps } else p

/-- `s` running, with these bytes at the probe's address, the program counter there, and a step of the frame's budget
left, so that the very next step fetches them (log entry 6). -/
def placeAtFetch (s : State) (bytes : List Byte) : State where
  params := probeParams s.params
  mem := memWriteList s.mem (probePc s).toNat bytes
  pc := probePc s
  phase := .run
  cnt := if s.cnt < (probeParams s.params).nSteps then s.cnt else 0
  gfxPage := s.gfxPage
  audioReg := s.audioReg
  host := s.host
  loads := s.loads

end Sys2Proof.Machine
end

