-- ==== Sys2Proof/Machine/IoDecoder.lean ====
section
/-! DEFINITION. The memory-mapped I/O register decoder, stateless functions of memory (42_io_decoder.md R96), and the
output ports (10_state.md R25). -/

namespace Sys2Proof.Machine

/-- The keyboard register `K`, bytes 0 and 1 (42_io_decoder.md R85). -/
def keysRegister (m : Memory) : Half := memRead2 m Config.keyAddr

/-- Whether logical key `key` is held in a keyboard vector: its bit `key` (42_io_decoder.md R85). There are 16 keys
(00_scope.md R4 `KEY_COUNT`). -/
def keyHeld (keys : Half) (key : Fin 16) : Bool := keys.getLsbD key.val

/-- The vector with the bit of one key set. -/
def keyBit (key : Fin 16) : Half := 1#16 <<< key.val

/-- `KEY_SET(K, key, pressed)` (42_io_decoder.md R86); a key number above 15 cannot be written (R97). -/
def keySet (keys : Half) (key : Fin 16) (pressed : Bool) : Half :=
  if pressed then keys ||| keyBit key else keys &&& ~~~(keyBit key)

/-- `KEY_CLEAR_ALL()` (42_io_decoder.md R87). -/
def keyClearAll : Half := 0#16

/-- The vector a host must present when exactly these keys are held: all clear, then each set
(42_io_decoder.md R88). -/
def keysOfHeld (held : List (Fin 16)) : Half :=
  held.foldl (fun keys key => keySet keys key true) keyClearAll

/-- `KEY_SET` on memory (42_io_decoder.md R86). -/
def keyboardSet (m : Memory) (key : Fin 16) (pressed : Bool) : Memory :=
  memWrite2 m Config.keyAddr (keySet (keysRegister m) key pressed)

/-- `KEY_CLEAR_ALL` on memory (42_io_decoder.md R87). -/
def keyboardClearAll (m : Memory) : Memory := memWrite2 m Config.keyAddr keyClearAll

/-- The reset vector, bytes 2 to 4 (42_io_decoder.md R93). -/
def resetVector (m : Memory) : Addr := memRead3 m Config.vecAddr

/-- The plane-base byte, byte 5 (10_state.md R21). -/
def planeBase (m : Memory) : Byte := memRead m Config.gfxAddr

/-- The audio register, bytes 6 and 7, exported and not interpreted (42_io_decoder.md R94). -/
def audioRegister (m : Memory) : Half := memRead2 m Config.audAddr

/-- The address of pixel (x, y) of a page: `page, y, x` from the high byte down (42_io_decoder.md R89). Coordinates
above 255 cannot be written (R91). -/
def pixelAddr (page x y : Byte) : Addr := be24 page y x

/-- `PIXEL_ADDR(x, y)` for the page memory holds now (42_io_decoder.md R89). -/
def currentPixelAddr (m : Memory) (x y : Byte) : Addr := pixelAddr (planeBase m) x y

/-- Whether an address lies in the plane of a page, 65536 bytes from `page * 2^16` on (42_io_decoder.md R90). -/
def inPlane (page : Byte) (a : Addr) : Bool :=
  decide (page.toNat * (Config.screenW * Config.screenH) ≤ a.toNat) &&
    decide (a.toNat < (page.toNat + 1) * (Config.screenW * Config.screenH))

/-- Whether a pixel's value is one of the meaningful palette indices. Only a host that paints asks: the core stores,
copies and returns every byte alike (42_io_decoder.md R92). -/
def paletteIndexMeaningful (value : Byte) : Bool := decide (value.toNat < Config.paletteEntries)

/-- The `idle` output (10_state.md R25). -/
def idleOut (s : State) : Bool := decide (s.phase = .idle)

/-- The `pc_out` output, for observation only (10_state.md R25). -/
def pcOut (s : State) : Addr := s.pc

/-- The host's read port: the byte at an address while the core is idle, nothing while it runs
(10_state.md R25, 20_memory.md R44). DESIGN CHOICE, safe: log entry 5. -/
def hostRead (s : State) (a : Addr) : Option Byte :=
  match s.phase with
  | .idle => some (memRead s.mem a.toNat)
  | .run => none

/-- A pixel as the host renders it: the byte at the pixel's address in the page sampled at the last frame end
(42_io_decoder.md R89, R92). -/
def renderPixel (s : State) (x y : Byte) : Option Byte := hostRead s (pixelAddr s.gfxPage x y)

end Sys2Proof.Machine
end

