-- ==== Sys2Proof/Machine/FrameSequencer.lean ====
section
/-! DEFINITION. The frame sequencer: LOAD, the key latch, FRAME_RESET, the instruction-count divider, the frame end and
the host's turn (41_frame_sequencer.md, 70_reset_and_hazards.md R115). -/

namespace Sys2Proof.Machine

/-- The key latch: both bytes of the keyboard register take the `keys` input (41_frame_sequencer.md R76). -/
def keyLatch (keys : Half) (s : State) : State := s.setMem (memWrite2 s.mem Config.keyAddr keys)

/-- `FRAME_RESET`: the program counter takes the reset vector; nothing else changes
(41_frame_sequencer.md R70). -/
def frameReset (s : State) : State := s.setPc (resetVector s.mem)

/-- The end of a frame: the outputs are sampled, then the core is idle (41_frame_sequencer.md R71, R77). -/
def frameEnd (s : State) : State :=
  (s.setOutputs (planeBase s.mem) (audioRegister s.mem)).setPhase .idle

/-- The frame goes on while steps of its budget are left, and ends when `cnt = N_STEPS`
(41_frame_sequencer.md R73, R74). DEDUCED, safe: log entry 8. -/
def endIfSpent (s : State) : State := if s.cnt < s.params.nSteps then s else frameEnd s

/-- Count one completed step, whatever it did; the last of the budget ends the frame
(41_frame_sequencer.md R73). -/
def countStep (s : State) : State := endIfSpent (s.setCnt (s.cnt + 1))

/-- The start of a frame: running, keys latched, program counter reloaded, count cleared, in this order
(41_frame_sequencer.md R71, 60_exceptions.md R104). -/
def frameStart (keys : Half) (s : State) : State :=
  (frameReset (keyLatch keys (s.setPhase .run))).setCnt 0

/-- The host raises `frame_go` with `keys`: accepted when idle, without effect while a frame runs
(41_frame_sequencer.md R71, R75). A frame with an empty budget ends at once (R73). -/
def frameGo (keys : Half) (s : State) : State :=
  match s.phase with
  | .idle => endIfSpent (frameStart keys s)
  | .run => s

/-- The machine a LOAD creates: the image from address 0, zeros after it, idle, no step counted; the program counter
and the outputs without a stated value, so drawn anew (70_reset_and_hazards.md R115, 10_state.md R24). DESIGN CHOICE and
DEDUCED, safe: log entries 1 and 4. -/
def createdState (image : List Byte) (s : State) : State where
  params := s.params
  mem := imageCells 0 image
  pc := Config.pcAfterLoad (s.loads + 1)
  phase := .idle
  cnt := 0
  gfxPage := Config.gfxPageAfterLoad (s.loads + 1)
  audioReg := Config.audioRegAfterLoad (s.loads + 1)
  host := s.host
  loads := s.loads + 1

/-- `LOAD(image)`: full creation from the image; an image of more than 2^24 bytes is refused with `ImageTooLarge` and
nothing is built (70_reset_and_hazards.md R115, 60_exceptions.md R102). -/
def loadImage (image : List Byte) (s : State) : Host.Outcome State Fault Refusal :=
  if imageFits image then .next (createdState image s) else .fault (.imageTooLarge image.length)

/-- The host's turn, while the core is idle: its next move is taken, or, when it makes none, the core holds all state
(41_frame_sequencer.md R79, R82). DESIGN CHOICE, unsafe for a host outside the spec's contract: log entry 2. -/
def hostTurn (s : State) : Host.Outcome State Fault Refusal :=
  match s.host with
  | [] => .next s
  | .frameGo keys :: rest => .next (frameGo keys (s.setHost rest))
  | .load image :: rest => loadImage image (s.setHost rest)

end Sys2Proof.Machine
end

