-- ==== Sys2Proof/Machine/Step.lean ====
section
/-! DEFINITION. One step of the machine: an instruction step of the core while it runs, a move of the host while it is
idle (00_scope.md R3, R5). -/

namespace Sys2Proof.Machine

/-- While running with budget left: execute the instruction at the program counter and count the step; with the budget
spent, the frame ends. While idle: the host's turn (41_frame_sequencer.md R71, R73, R79). DEDUCED, safe: log entry 8. -/
def step (s : State) : Host.Outcome State Fault Refusal :=
  match s.phase with
  | .idle => hostTurn s
  | .run =>
    if s.cnt < s.params.nSteps then
      match exec (fetchInstr s) s with
      | .next t => .next (countStep t)
      | .fault r => .fault r
      | .refused r => .refused r
    else .next (frameEnd s)

/-- `s` with the instruction whose bits are `w` stored where the next step fetches (log entry 6). -/
def State.withFetchWord (s : State) (nbits w : Nat) : State :=
  placeAtFetch s (tableWordBytes nbits w)

end Sys2Proof.Machine
end

