-- ==== Sys2Proof/Machine/RunFrame.lean ====
section
/-! DEFINITION. Many steps of the machine, and a whole frame as one transition, written line by line from the spec's pseudocode of RUN_FRAME
(41_frame_sequencer.md R71). The step function of Step.lean is the machine; this is what its frames are claimed to
be. -/

namespace Sys2Proof.Machine

/-- This many steps, as far as the machine goes. -/
def stepMany : Nat → State → Host.Outcome State Fault Refusal
  | 0, s => .next s
  | k + 1, s =>
    match step s with
    | .next t => stepMany k t
    | .fault r => .fault r
    | .refused r => .refused r

/-- One BBJ step at `pc`, its fields read as the pseudocode of 40_copy_jump.md R60 reads them. -/
def bbjStep (s : State) : State :=
  copyAndJump (memRead3 s.mem s.pc.toNat) (memRead3 s.mem (s.pc.toNat + 3)) (memRead3 s.mem (s.pc.toNat + 6)) s

/-- The loop of RUN_FRAME with this many steps left: a BBJ step, then `cnt <- cnt + 1`. -/
def runSteps : Nat → State → State
  | 0, s => s
  | left + 1, s => runSteps left ((bbjStep s).setCnt (s.cnt + 1))

/-- `RUN_FRAME(keys)` on an idle machine: key latch, FRAME_RESET, `N_STEPS` steps, sampling, idle again
(41_frame_sequencer.md R71). -/
def runFrame (keys : Half) (s : State) : State :=
  frameEnd (runSteps s.params.nSteps (frameStart keys s))

end Sys2Proof.Machine
end

