-- ==== Sys2Proof/Safety.lean ====
section
/-! DEFINITION. What claims call a sound state and a host that keeps its duty. -/

namespace Sys2Proof.Machine

/-- What every state of a run satisfies: memory in canonical form, the count within the budget, and a step of the
budget left while a frame runs (10_state.md R10, R22). -/
abbrev State.Inv (s : State) : Prop :=
  Memory.wf s.mem = true ∧ s.cnt ≤ s.params.nSteps ∧ (s.phase = .run → s.cnt < s.params.nSteps)

/-- A host move that keeps the host's duty: an image it loads has at most 2^24 bytes (41_frame_sequencer.md R82). -/
def HostMove.fits : HostMove → Bool
  | .frameGo _ => true
  | .load image => imageFits image

/-- The host will keep its duty in every move to come. -/
abbrev State.HostDutiful (s : State) : Prop := s.host.all HostMove.fits = true

end Sys2Proof.Machine
end

