-- ==== Sys2Proof/Certificates/Slice0/Obligations.lean ====
section
/-! DEFINITION. The statements about the machine, for the provers. Each docstring names the rule of spec/ it follows;
OBLIGATIONS.json lists them. A head `.frameGo keys` or
`.load image` of `s.host` stands for the host using the input ports of 10_state.md R25 in an idle core; that the moves
are a list in State, and what a statement says of the rest of the list, is the model's choice, log entry 2. Where a statement speaks of `jumpAfterCopy` or `nSteps`, it holds for every value of the
parameter that its hypotheses leave (00_scope.md R4). -/

open Sys2Proof Sys2Proof.Machine

/-! ### Memory -/

/-- The pad reads 0x00 and a write to it changes nothing (20_memory.md R31). -/
def Obligations.PadReadsZeroAndIsNeverWritten : Prop :=
  ∀ (m : Memory) (a : Nat) (v : Byte), 16777216 ≤ a → a ≤ 16777223 → memRead m a = 0#8 ∧ memWrite m a v = m

/-- The two- and three-byte reads put the byte of the lowest address on top (20_memory.md R34, R35, R37). -/
def Obligations.MultiByteReadsAreBigEndian : Prop :=
  ∀ (m : Memory) (a : Nat),
    (memRead3 m a).toNat =
        (memRead m a).toNat * 65536 + (memRead m (a + 1)).toNat * 256 + (memRead m (a + 2)).toNat ∧
      (memRead2 m a).toNat = (memRead m a).toNat * 256 + (memRead m (a + 1)).toNat

/-- A two-byte write inside memory is read back whole and changes no other byte (20_memory.md R35). -/
def Obligations.TwoByteWriteReadsBack : Prop :=
  ∀ (m : Memory) (a : Nat) (v : Half), a + 1 < 16777216 →
    memRead2 (memWrite2 m a v) a = v ∧
      ∀ b, b ≠ a → b ≠ a + 1 → memRead (memWrite2 m a v) b = memRead m b

/-- The canonical form does its work: two memories in it that agree on every byte are the same data. It is a property of
the model's memory, the array `MEM` of 10_state.md R10. -/
def Obligations.EqualBytesAreEqualMemories : Prop :=
  ∀ m m' : Memory, m.wf = true → m'.wf = true →
    (∀ a, a < 16777216 → memRead m a = memRead m' a) → m = m'

/-! ### Encoding -/

/-- Decoding an encoded instruction gives it back, and the bytes after it, for every value of every field
(30_encoding.md R50, R51). -/
def Obligations.DecodeInvertsEncode : Prop :=
  ∀ (i : Instr) (rest : List Byte), decode (encode i ++ rest) = .ok (i, rest)

/-- What decodes is the encoding of what it decodes to: each word has one meaning (30_encoding.md R50, R52). -/
def Obligations.EncodeInvertsDecode : Prop :=
  ∀ (bytes rest : List Byte) (i : Instr), decode bytes = .ok (i, rest) → bytes = encode i ++ rest

/-- Every nine bytes are the well-formed instruction BBJ with the three big-endian fields; decoding cannot fail
(30_encoding.md R52). -/
def Obligations.EveryNineBytesAreOneBbj : Prop :=
  ∀ (b0 b1 b2 b3 b4 b5 b6 b7 b8 : Byte) (rest : List Byte),
    decode (b0 :: b1 :: b2 :: b3 :: b4 :: b5 :: b6 :: b7 :: b8 :: rest) =
        .ok (.bbj (be24 b0 b1 b2) (be24 b3 b4 b5) (be24 b6 b7 b8), rest) ∧
      (Instr.bbj (be24 b0 b1 b2) (be24 b3 b4 b5) (be24 b6 b7 b8)).wf = true

/-- The fetched instruction has the fields `MemRead(pc, 3)`, `MemRead(pc + 3, 3)`, `MemRead(pc + 6, 3)`
(30_encoding.md R51). -/
def Obligations.FetchAssemblesTheThreeFields : Prop :=
  ∀ s : State,
    fetchInstr s =
      .bbj (memRead3 s.mem s.pc.toNat) (memRead3 s.mem (s.pc.toNat + 3)) (memRead3 s.mem (s.pc.toNat + 6))

/-- Words written out from the encoding table: the document's example (95_test_vectors.md E1), three fields whose bytes
all differ (V2), and the all-zero word (30_encoding.md R53). -/
def Obligations.WordsFromTheEncodingTableDecodeRight : Prop :=
  decode [0x00#8, 0x00#8, 0x14#8, 0x00#8, 0x00#8, 0x19#8, 0x00#8, 0x00#8, 0x11#8] =
      .ok (.bbj 20#24 25#24 17#24, []) ∧
    decode [0x12#8, 0x34#8, 0x56#8, 0xAB#8, 0xCD#8, 0xEF#8, 0xFE#8, 0xDC#8, 0xBA#8] =
      .ok (.bbj 0x123456#24 0xABCDEF#24 0xFEDCBA#24, []) ∧
    decode [0#8, 0#8, 0#8, 0#8, 0#8, 0#8, 0#8, 0#8, 0#8] = .ok (.bbj 0#24 0#24 0#24, [])

/-- Near the top of memory the bytes past 2^24 - 1 are 0x00; at the last address only the top byte of `source` comes
from memory; the last program counter with a whole window is 2^24 - 9 (30_encoding.md R55). -/
def Obligations.FetchPastTheTopReadsThePad : Prop :=
  ∀ s : State,
    (∀ k, k ≤ 8 →
      (fetchBytes s)[k]? = some (if s.pc.toNat + k < 16777216 then memRead s.mem (s.pc.toNat + k) else 0#8)) ∧
    (s.pc = 0xFFFFFF#24 → fetchInstr s = .bbj (be24 (memRead s.mem 0xFFFFFF) 0#8 0#8) 0#24 0#24) ∧
    ((∀ k, k ≤ 8 → s.pc.toNat + k < 16777216) ↔ s.pc.toNat ≤ 16777207)

/-! ### The instruction -/

/-- A step of a running machine with budget left is `exec` of the instruction its bytes decode to, then counted
(41_frame_sequencer.md R71, R73). -/
def Obligations.StepRunsTheDecodedInstruction : Prop :=
  ∀ (s : State) (i : Instr), s.phase = .run → s.cnt < s.params.nSteps →
    decode (fetchBytes s) = .ok (i, []) →
    step s =
      match exec i s with
      | .next t => .next (countStep t)
      | .fault r => .fault r
      | .refused r => .refused r

/-- BBJ completes on every operand and in every state: the byte at `source`, as it was before, is at `destination`, and
the program counter is `jump`, or with JUMP_AFTER_COPY the jump field as memory holds it after the write
(40_copy_jump.md R60, R62). -/
def Obligations.BbjCopiesOneByteAndJumps : Prop :=
  ∀ (source destination jump : Addr) (s : State),
    ∃ t : State, exec (.bbj source destination jump) s = .next t ∧
      memRead t.mem destination.toNat = memRead s.mem source.toNat ∧
      t.pc = if s.params.jumpAfterCopy then memRead3 t.mem (s.pc.toNat + 6) else jump

/-- What BBJ leaves unchanged: every byte but the one at `destination`, and everything but memory and the program
counter (40_copy_jump.md R60, 20_memory.md R33). -/
def Obligations.BbjFrame : Prop :=
  ∀ (source destination jump : Addr) (s t : State), exec (.bbj source destination jump) s = .next t →
    (∀ a, a ≠ destination.toNat → memRead t.mem a = memRead s.mem a) ∧
      t.params = s.params ∧ t.phase = s.phase ∧ t.cnt = s.cnt ∧ t.gfxPage = s.gfxPage ∧
      t.audioReg = s.audioReg ∧ t.host = s.host ∧ t.loads = s.loads

/-- One step as the pseudocode of R60 has it, with the default order: three fields read, the byte copied, every other
byte as before, `pc <- jump`, the step counted by the sequencer and neither read nor written by the instruction
(40_copy_jump.md R60). -/
def Obligations.StepIsTheBbjPseudocode : Prop :=
  ∀ s : State, s.phase = .run → s.cnt < s.params.nSteps → s.params.jumpAfterCopy = false →
    ∃ t u : State, step s = .next t ∧
      memRead t.mem (memRead3 s.mem (s.pc.toNat + 3)).toNat =
        memRead s.mem (memRead3 s.mem s.pc.toNat).toNat ∧
      (∀ a, a ≠ (memRead3 s.mem (s.pc.toNat + 3)).toNat → memRead t.mem a = memRead s.mem a) ∧
      t.pc = memRead3 s.mem (s.pc.toNat + 6) ∧
      t.cnt = s.cnt + 1 ∧
      (∀ n, exec (fetchInstr s) (s.setCnt n) = .next (u.setCnt n)) ∧ u.mem = t.mem ∧ u.pc = t.pc

/-- A self-copy leaves memory as it was and jumps as always, whichever order of jump read and write the hardware has
(40_copy_jump.md R61). -/
def Obligations.SelfCopyChangesNoByteAndJumps : Prop :=
  ∀ s : State, s.phase = .run → s.cnt < s.params.nSteps →
    memRead3 s.mem (s.pc.toNat + 3) = memRead3 s.mem s.pc.toNat →
    ∃ t : State, step s = .next t ∧ t.pc = memRead3 s.mem (s.pc.toNat + 6) ∧
      (∀ a, memRead t.mem a = memRead s.mem a) ∧ (s.mem.wf = true → t.mem = s.mem)

/-- Which jump field a step uses: the old one by default and whenever the store falls outside the field; with
JUMP_AFTER_COPY the field as stored (40_copy_jump.md R62). -/
def Obligations.OwnJumpFieldStore : Prop :=
  ∀ s : State, s.phase = .run → s.cnt < s.params.nSteps →
    ∃ t : State, step s = .next t ∧
      (s.params.jumpAfterCopy = false → t.pc = memRead3 s.mem (s.pc.toNat + 6)) ∧
      (s.params.jumpAfterCopy = true → t.pc = memRead3 t.mem (s.pc.toNat + 6)) ∧
      ((memRead3 s.mem (s.pc.toNat + 3)).toNat < s.pc.toNat + 6 ∨
          s.pc.toNat + 8 < (memRead3 s.mem (s.pc.toNat + 3)).toNat →
        t.pc = memRead3 s.mem (s.pc.toNat + 6))

/-- A byte stored by a step is in the instruction the next step fetches, and every other byte of it is as memory held it
(20_memory.md R46, 70_reset_and_hazards.md R120). -/
def Obligations.NextFetchSeesTheStore : Prop :=
  ∀ s : State, s.phase = .run → s.cnt < s.params.nSteps →
    ∃ t : State, step s = .next t ∧
      ∀ k, k ≤ 8 →
        (fetchBytes t)[k]? =
          some (if t.pc.toNat + k = (memRead3 s.mem (s.pc.toNat + 3)).toNat
            then memRead s.mem (memRead3 s.mem s.pc.toNat).toNat
            else memRead s.mem (t.pc.toNat + k))

/-- The instruction at the last address jumps to 0 and writes address 0, whatever memory holds and whichever order the
jump field is read in (40_copy_jump.md R63, 70_reset_and_hazards.md R126). -/
def Obligations.StepAtTheTopOfMemory : Prop :=
  ∀ s : State, s.phase = .run → s.cnt < s.params.nSteps → s.pc = 0xFFFFFF#24 →
    ∃ t : State, step s = .next t ∧ t.pc = 0#24 ∧
      memRead t.mem 0 = memRead s.mem (be24 (memRead s.mem 0xFFFFFF) 0#8 0#8).toNat ∧
      ∀ a, a ≠ 0 → memRead t.mem a = memRead s.mem a

/-- A store into the reset vector does not redirect the step that makes it; the next frame starts at what the three bytes
then hold (70_reset_and_hazards.md R121, 10_state.md R13). -/
def Obligations.StoreToVecWaitsForTheNextFrame : Prop :=
  ∀ s : State, s.phase = .run → s.cnt < s.params.nSteps → s.params.jumpAfterCopy = false →
    ∀ k, 2 ≤ k → k ≤ 4 → (memRead3 s.mem (s.pc.toNat + 3)).toNat = k →
      ∃ t : State, step s = .next t ∧ t.pc = memRead3 s.mem (s.pc.toNat + 6) ∧
        (frameReset t).pc =
          be24 (if k = 2 then memRead s.mem (memRead3 s.mem s.pc.toNat).toNat else memRead s.mem 2)
            (if k = 3 then memRead s.mem (memRead3 s.mem s.pc.toNat).toNat else memRead s.mem 3)
            (if k = 4 then memRead s.mem (memRead3 s.mem s.pc.toNat).toNat else memRead s.mem 4)

/-- No instruction raises an exception, and no instruction step of a running machine stops
(60_exceptions.md R100). -/
def Obligations.NoInstructionRaisesAnException : Prop :=
  (∀ (i : Instr) (s : State), ∃ t : State, exec i s = .next t) ∧
    ∀ s : State, s.phase = .run → s.cnt < s.params.nSteps → ∃ t : State, step s = .next t

/-- The machine stops in one way: `ImageTooLarge`, with the offending length, exactly when an idle machine is given an
image of more than 2^24 bytes (60_exceptions.md R102). -/
def Obligations.ImageTooLargeIsTheOnlyStop : Prop :=
  ∀ s : State,
    (∀ r, step s = .fault r ↔
      s.phase = .idle ∧ ∃ image rest, s.host = .load image :: rest ∧ 16777216 < image.length ∧
        r = .imageTooLarge image.length) ∧
    ∀ r, step s ≠ .refused r

/-- Only three things change the program counter: a BBJ (its jump), a frame start (the reset vector), and a LOAD, which
leaves it without a stated value (10_state.md R13, 60_exceptions.md R103). That a LOAD gives it a free value is the
model's choice, log entry 1. -/
def Obligations.OnlyBbjFrameStartAndLoadWritePc : Prop :=
  ∀ s t : State, step s = .next t → t.pc ≠ s.pc →
    (s.phase = .run ∧ s.cnt < s.params.nSteps ∧
      t.pc = memRead3 (if s.params.jumpAfterCopy then t.mem else s.mem) (s.pc.toNat + 6)) ∨
    (s.phase = .idle ∧ (∃ keys rest, s.host = .frameGo keys :: rest) ∧ t.pc = memRead3 s.mem 2) ∨
    (s.phase = .idle ∧ ∃ image rest, s.host = .load image :: rest)

/-! ### The frame sequencer -/

/-- FRAME_RESET writes the program counter, with bytes 2 to 4 from the high byte down, and nothing else
(41_frame_sequencer.md R70). -/
def Obligations.FrameResetReloadsOnlyPc : Prop :=
  ∀ s : State,
    frameReset s = { s with pc := be24 (memRead s.mem 2) (memRead s.mem 3) (memRead s.mem 4) } ∧
      (frameReset s).pc.toNat =
        (memRead s.mem 2).toNat * 65536 + (memRead s.mem 3).toNat * 256 + (memRead s.mem 4).toNat

/-- A frame start: both keyboard bytes take the keys, every other byte stays, the program counter takes the reset
vector, the count is 0; the frame runs if it has a budget and ends at once, outputs sampled, if it has none
(41_frame_sequencer.md R70, R71, R73, R76). Which step
of the model each of these falls on is the model's choice, log entry 8. -/
def Obligations.FrameStartLatchesKeysAndReloadsPc : Prop :=
  ∀ (s : State) (keys : Half) (rest : List HostMove), s.phase = .idle → s.host = .frameGo keys :: rest →
    ∃ t : State, step s = .next t ∧
      memRead t.mem 0 = keys.extractLsb' 8 8 ∧ memRead t.mem 1 = keys.extractLsb' 0 8 ∧
      (∀ a, 2 ≤ a → memRead t.mem a = memRead s.mem a) ∧
      t.pc = be24 (memRead s.mem 2) (memRead s.mem 3) (memRead s.mem 4) ∧
      t.cnt = 0 ∧ t.host = rest ∧ t.params = s.params ∧ t.loads = s.loads ∧
      (0 < s.params.nSteps → t.phase = .run ∧ t.gfxPage = s.gfxPage ∧ t.audioReg = s.audioReg) ∧
      (s.params.nSteps = 0 →
        t.phase = .idle ∧ t.gfxPage = memRead s.mem 5 ∧
          t.audioReg = be16 (memRead s.mem 6) (memRead s.mem 7))

/-- A frame start and one step: the instruction at the reset vector, read from memory with the keys latched, has been
executed, with the default order and a budget of at least one step (95_test_vectors.md E3, 41_frame_sequencer.md R70,
40_copy_jump.md R60). That the frame start (key latch and FRAME_RESET) is one step of the model and the first instruction
the very next one is the model's choice, log entry 8. -/
def Obligations.ResetThenStepRunsTheFirstInstruction : Prop :=
  ∀ (s : State) (keys : Half) (rest : List HostMove), s.phase = .idle → s.host = .frameGo keys :: rest →
    0 < s.params.nSteps → s.params.jumpAfterCopy = false →
    ∃ t u : State, step s = .next t ∧ step t = .next u ∧
      u.pc = memRead3 t.mem ((memRead3 s.mem 2).toNat + 6) ∧
      memRead u.mem (memRead3 t.mem ((memRead3 s.mem 2).toNat + 3)).toNat =
        memRead t.mem (memRead3 t.mem (memRead3 s.mem 2).toNat).toNat ∧
      ∀ a, a ≠ (memRead3 t.mem ((memRead3 s.mem 2).toNat + 3)).toNat → memRead u.mem a = memRead t.mem a

/-- Every step of a frame counts as one, and the frame ends with the step that makes the count `N_STEPS`
(41_frame_sequencer.md R73, R74). Which step
of the model each of these falls on is the model's choice, log entry 8. -/
def Obligations.EveryStepCountsAsOne : Prop :=
  ∀ s : State, s.phase = .run → s.cnt < s.params.nSteps →
    ∃ t : State, step s = .next t ∧ t.cnt = s.cnt + 1 ∧ (t.phase = .idle ↔ s.cnt + 1 = s.params.nSteps)

/-- The outputs are sampled after the last step of a frame, from memory as that step left it, and hold their values
through every other step of the core and every host move but a LOAD (41_frame_sequencer.md R77). Which step
of the model each of these falls on is the model's choice, log entry 8. -/
def Obligations.OutputsAreSampledAtTheFrameEnd : Prop :=
  ∀ s t : State, step s = .next t →
    (s.phase = .run → s.params.nSteps ≤ s.cnt + 1 →
      t.gfxPage = memRead t.mem 5 ∧ t.audioReg = be16 (memRead t.mem 6) (memRead t.mem 7)) ∧
    (s.phase = .run → s.cnt + 1 < s.params.nSteps → t.gfxPage = s.gfxPage ∧ t.audioReg = s.audioReg) ∧
    (s.phase = .idle → t.phase = .run → t.gfxPage = s.gfxPage ∧ t.audioReg = s.audioReg) ∧
    (s.phase = .idle → s.host = [] → t.gfxPage = s.gfxPage ∧ t.audioReg = s.audioReg)

/-- With no move of the host the idle core holds all state, for as long as one likes
(41_frame_sequencer.md R79, 60_exceptions.md R112). -/
def Obligations.IdleCoreHoldsAllState : Prop :=
  ∀ (s : State) (k : Nat), s.phase = .idle → s.host = [] → stepMany k s = .next s

/-- `frame_go` while a frame runs has no effect, and what the host will do, keys included, does not touch a running
step (41_frame_sequencer.md R75). -/
def Obligations.FrameGoDuringAFrameHasNoEffect : Prop :=
  (∀ (keys : Half) (s : State), s.phase = .run → frameGo keys s = s) ∧
    ∀ (s t : State) (moves : List HostMove), s.phase = .run → step s = .next t →
      t.host = s.host ∧ step (s.setHost moves) = .next (t.setHost moves)

/-- A frame runs exactly its budget: after the frame start and k steps the count is k, and the machine is running while
k is below `N_STEPS` and idle at it; no instruction shortens or lengthens a frame (41_frame_sequencer.md R71 to
R73). Which step
of the model each of these falls on is the model's choice, log entry 8. -/
def Obligations.FrameRunsExactlyItsBudget : Prop :=
  ∀ (s : State) (keys : Half) (rest : List HostMove), s.phase = .idle → s.host = .frameGo keys :: rest →
    ∀ k, k ≤ s.params.nSteps →
      ∃ t : State, stepMany (k + 1) s = .next t ∧ t.cnt = k ∧ (t.phase = .run ↔ k < s.params.nSteps) ∧ t.host = rest

/-- A whole frame of the machine, one frame start and `N_STEPS` steps, is RUN_FRAME of the spec's pseudocode
(41_frame_sequencer.md R71). That they are this many steps of the model is the model's choice, log entry 8. -/
def Obligations.FrameOfStepsIsRunFrame : Prop :=
  ∀ (s : State) (keys : Half) (rest : List HostMove), s.phase = .idle → s.host = .frameGo keys :: rest →
    stepMany (s.params.nSteps + 1) s = .next (runFrame keys (s.setHost rest))

/-- Frame isolation: two idle machines with the same memory and parameters, given the same keys, agree on memory and
program counter after every step of the frame and on the outputs at its end, whatever program counter, count and
outputs they came with (41_frame_sequencer.md R80). Which step
of the model each of these falls on is the model's choice, log entry 8. -/
def Obligations.FramesAreIsolated : Prop :=
  ∀ (s s' : State) (keys : Half) (rest rest' : List HostMove),
    s.phase = .idle → s'.phase = .idle → s.host = .frameGo keys :: rest → s'.host = .frameGo keys :: rest' →
    s.mem = s'.mem → s.params = s'.params →
    ∀ k, k ≤ s.params.nSteps →
      ∃ t t' : State, stepMany (k + 1) s = .next t ∧ stepMany (k + 1) s' = .next t' ∧
        t.mem = t'.mem ∧ t.pc = t'.pc ∧ t.cnt = t'.cnt ∧ t.phase = t'.phase ∧
        (k = s.params.nSteps → t.gfxPage = t'.gfxPage ∧ t.audioReg = t'.audioReg)

/-- An instruction that copies its own address onto itself and jumps to itself is run again and again, changing no byte,
until the budget is spent (70_reset_and_hazards.md R118). -/
def Obligations.IdleLoopOnlySpendsTheBudget : Prop :=
  ∀ s : State, s.phase = .run →
    memRead3 s.mem s.pc.toNat = s.pc → memRead3 s.mem (s.pc.toNat + 3) = s.pc →
    memRead3 s.mem (s.pc.toNat + 6) = s.pc →
    ∀ k, s.cnt + k ≤ s.params.nSteps →
      ∃ t : State, stepMany k s = .next t ∧ t.pc = s.pc ∧ t.cnt = s.cnt + k ∧
        ∀ a, memRead t.mem a = memRead s.mem a

/-! ### Load, reset and invariants -/

/-- LOAD builds memory from the image, zeros after it, and an idle machine with no step counted; an image of more than
2^24 bytes is refused and one of exactly 2^24 accepted (70_reset_and_hazards.md R115). That parameters and later moves
stay is the model's choice, log entries 3 and 4. -/
def Obligations.LoadBuildsTheMachine : Prop :=
  ∀ (s : State) (image : List Byte) (rest : List HostMove), s.phase = .idle → s.host = .load image :: rest →
    (16777216 < image.length → step s = .fault (.imageTooLarge image.length)) ∧
    (image.length ≤ 16777216 →
      ∃ t : State, step s = .next t ∧
        (∀ a, a < image.length → some (memRead t.mem a) = image[a]?) ∧
        (∀ a, image.length ≤ a → memRead t.mem a = 0#8) ∧
        t.phase = .idle ∧ t.cnt = 0 ∧ t.params = s.params ∧ t.host = rest)

/-- After power-on with an empty image memory is all 0x00, the core is idle, no step is counted, and the parameters have
their defaults (10_state.md R24, 00_scope.md R4; 95_test_vectors.md L1). That reset is the load of the empty image is
the model's choice, log entry 7. -/
def Obligations.ResetStateIsTheLoadedEmptyImage : Prop :=
  (∀ a, memRead State.reset.mem a = 0#8) ∧ State.reset.phase = .idle ∧ State.reset.cnt = 0 ∧
    State.reset.params.nSteps = 65536 ∧ State.reset.params.jumpAfterCopy = false

/-- The invariant holds at reset, for every value of the parameters and every host. -/
def Obligations.ResetMeetsTheInvariant : Prop :=
  ∀ (p : Params) (moves : List HostMove), State.Inv ({ State.reset with params := p }.setHost moves)

/-- Every step keeps the invariant, from every state that meets it: memory in canonical form, count within the budget,
budget left while running (10_state.md R10, R22). -/
def Obligations.EveryStepKeepsTheInvariant : Prop :=
  ∀ s t : State, s.Inv → step s = .next t → t.Inv

/-- With a host that keeps its duty the machine never stops, and every state of its run meets the invariant
(60_exceptions.md R100, R102; 41_frame_sequencer.md R82). -/
def Obligations.DutifulHostNeverStopsTheMachine : Prop :=
  ∀ (s : State) (k : Nat), s.Inv → s.HostDutiful →
    ∃ t : State, stepMany k s = .next t ∧ t.Inv ∧ t.HostDutiful

/-- No step changes the parameters, and the program cannot: a design parameter is not derived from the program
(00_scope.md R4, 41_frame_sequencer.md R73). -/
def Obligations.ParametersNeverChange : Prop :=
  ∀ (s t : State) (k : Nat), stepMany k s = .next t → t.params = s.params

/-! ### The I/O register decoder -/

/-- Key N is bit N of `MEM[0] ‖ MEM[1]`: keys 0 to 7 in byte 1, keys 8 to 15 in byte 0 (42_io_decoder.md R85). -/
def Obligations.KeyIsItsBitOfTheKeyboardRegister : Prop :=
  ∀ (m : Memory) (key : Fin 16),
    (keysRegister m).toNat = (memRead m 0).toNat * 256 + (memRead m 1).toNat ∧
    keyHeld (keysRegister m) key =
      if key.val ≤ 7 then (memRead m 1).getLsbD key.val else (memRead m 0).getLsbD (key.val - 8)

/-- KEY_SET gives one key's bit the value and leaves the others; on memory only the key's own byte can change
(42_io_decoder.md R86). -/
def Obligations.KeySetChangesOneKey : Prop :=
  (∀ (keys : Half) (key other : Fin 16) (pressed : Bool),
    keyHeld (keySet keys key pressed) other = if other = key then pressed else keyHeld keys other) ∧
  ∀ (m : Memory) (key : Fin 16) (pressed : Bool),
    keysRegister (keyboardSet m key pressed) = keySet (keysRegister m) key pressed ∧
      ∀ a, a ≠ (if key.val ≤ 7 then 1 else 0) → memRead (keyboardSet m key pressed) a = memRead m a

/-- KEY_CLEAR_ALL leaves a zero register whatever was there, and every other byte alone
(42_io_decoder.md R87). -/
def Obligations.KeyClearAllZeroesTheRegister : Prop :=
  ∀ m : Memory,
    memRead (keyboardClearAll m) 0 = 0#8 ∧ memRead (keyboardClearAll m) 1 = 0#8 ∧
      keysRegister (keyboardClearAll m) = 0#16 ∧
      ∀ a, 2 ≤ a → memRead (keyboardClearAll m) a = memRead m a

/-- The vector made by clearing all keys and setting each held one has exactly the bits of the held keys
(42_io_decoder.md R88). -/
def Obligations.HeldKeysAreExactlyTheSetBits : Prop :=
  ∀ (held : List (Fin 16)) (key : Fin 16), keyHeld (keysOfHeld held) key = decide (key ∈ held)

/-- The pixel address is the plane-base byte, then y, then x, and the pixel an idle machine renders is the byte there in
the page sampled at the last frame end (42_io_decoder.md R89). -/
def Obligations.PixelAddressIsPageThenRowThenColumn : Prop :=
  (∀ (m : Memory) (x y : Byte),
    (currentPixelAddr m x y).toNat = (memRead m 5).toNat * 65536 + y.toNat * 256 + x.toNat) ∧
  ∀ (s : State) (x y : Byte), s.phase = .idle →
    renderPixel s x y = some (memRead s.mem (s.gfxPage.toNat * 65536 + y.toNat * 256 + x.toNat))

/-- The plane of a page is exactly its pixels' addresses, each the address of one pixel (42_io_decoder.md R90). -/
def Obligations.PlaneIsExactlyItsPixels : Prop :=
  (∀ (page : Byte) (a : Addr), inPlane page a = true ↔ ∃ x y, a = pixelAddr page x y) ∧
  ∀ page x y x' y' : Byte, pixelAddr page x y = pixelAddr page x' y' → x = x' ∧ y = y'

/-- The host reads any byte while the core is idle and none while it runs (20_memory.md R44,
41_frame_sequencer.md R78). That the port answers nothing in Run is the model's form of "no move", log entry 5. -/
def Obligations.HostReadsOnlyTheIdleCore : Prop :=
  ∀ (s : State) (a : Addr),
    hostRead s a = if s.phase = .idle then some (memRead s.mem a.toNat) else none
end

