-- ==== Sys2Proof/Laws/Memory.lean ====
section
/-! SUPPORT. What the memory operations do, said once each: a write is read back and leaves every other byte alone, and
every operation keeps the canonical form. -/

namespace Sys2Proof.Machine

theorem memSize_eq : Config.memSize = 16777216 := rfl

theorem unlistedByte_eq : unlistedByte = 0#8 := rfl

/-- A 24-bit address is an address of memory. -/
theorem addr_lt_memSize (a : Addr) : a.toNat < Config.memSize := a.isLt

theorem cellsRead_cellsPut (m : Memory) (a b : Nat) (v : Byte) :
    cellsRead (cellsPut m a v) b = if b = a then v else cellsRead m b := by
  induction m with
  | nil => simp [cellsPut, cellsRead]
  | cons c rest ih =>
    obtain ⟨k, w⟩ := c
    by_cases h1 : a < k
    · simp [cellsPut, cellsRead, h1]
    by_cases h2 : a = k
    · subst h2
      by_cases hb : b = a <;> simp [cellsPut, cellsRead, hb]
    · simp only [cellsPut, h1, h2, if_false, cellsRead, ih]
      by_cases hb : b = k <;> by_cases ha : b = a <;> simp_all

theorem cellsRead_cellsDrop (m : Memory) (a b : Nat) :
    cellsRead (cellsDrop m a) b = if b = a then unlistedByte else cellsRead m b := by
  induction m with
  | nil => simp [cellsDrop, cellsRead]
  | cons c rest ih =>
    obtain ⟨k, w⟩ := c
    by_cases h1 : a = k
    · subst h1
      by_cases hb : b = a <;> simp_all [cellsDrop, cellsRead]
    · simp only [cellsDrop, h1, if_false, cellsRead, ih]
      by_cases hb : b = k <;> by_cases ha : b = a <;> simp_all

/-- Read after write: a write to an address of memory is read back there, and every other byte reads as before
(20_memory.md R33). -/
theorem memRead_memWrite (m : Memory) (a b : Nat) (v : Byte) :
    memRead (memWrite m a v) b = if b = a ∧ a < Config.memSize then v else memRead m b := by
  by_cases ha : a < Config.memSize
  · by_cases hb : b = a
    · subst hb
      by_cases hv : v = unlistedByte
      · subst hv
        simp [memRead, memWrite, ha, cellsRead_cellsDrop]
      · simp [memRead, memWrite, ha, hv, cellsRead_cellsPut]
    · by_cases hv : v = unlistedByte
      · subst hv
        simp [memRead, memWrite, ha, cellsRead_cellsDrop, hb]
      · simp [memRead, memWrite, ha, hv, cellsRead_cellsPut, hb]
  · simp [memWrite, ha]

theorem memRead_memWrite_same (m : Memory) (a : Addr) (v : Byte) :
    memRead (memWrite m a.toNat v) a.toNat = v := by
  simp [memRead_memWrite, addr_lt_memSize]

theorem memRead_memWrite_ne (m : Memory) (a b : Nat) (v : Byte) (h : b ≠ a) :
    memRead (memWrite m a v) b = memRead m b := by
  simp [memRead_memWrite, h]

/-- Every address a fetch forms is one of memory or of the pad (10_state.md R15, 40_copy_jump.md R64). -/
theorem fetch_address_lt (pc : Addr) (k : Nat) (h : k < Config.instrBytes) :
    pc.toNat + k < Config.memSize + Config.padSize := by
  have hpc := addr_lt_memSize pc
  simp only [Config.instrBytes, Config.padSize] at h ⊢
  omega

/-- The pad, and anything above it, reads 0x00 whatever memory holds (20_memory.md R31). -/
theorem memRead_above (m : Memory) (a : Nat) (h : Config.memSize ≤ a) : memRead m a = 0#8 := by
  simp [memRead, Nat.not_lt.mpr h]

theorem memRead_nil (a : Nat) : memRead [] a = 0#8 := by simp [memRead, cellsRead, unlistedByte_eq]

/-- A list in canonical form from an address on lists nothing below it. -/
theorem cellsRead_below (m : Memory) (low a : Nat) (h : cellsWf low m = true) (ha : a < low) :
    cellsRead m a = unlistedByte := by
  induction m generalizing low with
  | nil => rfl
  | cons c rest ih =>
    obtain ⟨k, w⟩ := c
    simp only [cellsWf, Bool.and_eq_true, decide_eq_true_eq] at h
    obtain ⟨⟨⟨hlow, -⟩, -⟩, hrest⟩ := h
    have hne : a ≠ k := by omega
    simp only [cellsRead, hne, if_false]
    exact ih (k + 1) hrest (by omega)

theorem cellsWf_mono (m : Memory) (low low' : Nat) (h : cellsWf low m = true) (hl : low' ≤ low) :
    cellsWf low' m = true := by
  cases m with
  | nil => rfl
  | cons c rest =>
    obtain ⟨k, w⟩ := c
    simp only [cellsWf, Bool.and_eq_true, decide_eq_true_eq] at h ⊢
    exact ⟨⟨⟨by omega, h.1.1.2⟩, h.1.2⟩, h.2⟩

theorem cellsWf_cellsPut (m : Memory) (low a : Nat) (v : Byte) (h : cellsWf low m = true) (hl : low ≤ a)
    (ha : a < Config.memSize) (hv : v ≠ unlistedByte) : cellsWf low (cellsPut m a v) = true := by
  induction m generalizing low with
  | nil => simp [cellsPut, cellsWf, hl, ha, hv]
  | cons c rest ih =>
    obtain ⟨k, w⟩ := c
    simp only [cellsWf, Bool.and_eq_true, decide_eq_true_eq] at h
    obtain ⟨⟨⟨hk, hkm⟩, hw⟩, hrest⟩ := h
    by_cases h1 : a < k
    · simp only [cellsPut, h1, if_true, cellsWf, Bool.and_eq_true, decide_eq_true_eq]
      exact ⟨⟨⟨hl, ha⟩, hv⟩, ⟨⟨h1, hkm⟩, hw⟩, hrest⟩
    by_cases h2 : a = k
    · subst h2
      simp only [cellsPut, Nat.lt_irrefl, if_false, if_true, cellsWf, Bool.and_eq_true, decide_eq_true_eq]
      exact ⟨⟨⟨hl, ha⟩, hv⟩, hrest⟩
    · simp only [cellsPut, h1, h2, if_false, cellsWf, Bool.and_eq_true, decide_eq_true_eq]
      exact ⟨⟨⟨hk, hkm⟩, hw⟩, ih (k + 1) hrest (by omega)⟩

theorem cellsWf_cellsDrop (m : Memory) (low a : Nat) (h : cellsWf low m = true) :
    cellsWf low (cellsDrop m a) = true := by
  induction m generalizing low with
  | nil => rfl
  | cons c rest ih =>
    obtain ⟨k, w⟩ := c
    simp only [cellsWf, Bool.and_eq_true, decide_eq_true_eq] at h
    obtain ⟨⟨⟨hk, hkm⟩, hw⟩, hrest⟩ := h
    by_cases h1 : a = k
    · simp only [cellsDrop, h1, if_true]
      exact cellsWf_mono _ (k + 1) low (h1 ▸ ih (k + 1) hrest) (by omega)
    · simp only [cellsDrop, h1, if_false, cellsWf, Bool.and_eq_true, decide_eq_true_eq]
      exact ⟨⟨⟨hk, hkm⟩, hw⟩, ih (k + 1) hrest⟩

/-- What every byte is after a two-byte write inside memory (20_memory.md R35). -/
theorem memRead_memWrite2 (m : Memory) (a b : Nat) (v : Half) (h : a + 1 < Config.memSize) :
    memRead (memWrite2 m a v) b =
      if b = a then v.extractLsb' 8 8 else if b = a + 1 then v.extractLsb' 0 8 else memRead m b := by
  have h0 : a < Config.memSize := by omega
  by_cases h1 : b = a + 1
  · subst h1
    simp [memWrite2, memRead_memWrite, h]
  · by_cases h2 : b = a <;> simp [memWrite2, memRead_memWrite, h0, h1, h2]

/-- A byte write keeps the canonical form. -/
theorem memWrite_wf (m : Memory) (a : Nat) (v : Byte) (h : m.wf = true) : Memory.wf (memWrite m a v) = true := by
  unfold memWrite
  split
  · split
    · exact cellsWf_cellsDrop m 0 a h
    · exact cellsWf_cellsPut m 0 a v h (Nat.zero_le a) ‹_› ‹_›
  · exact h

/-- A two-byte write keeps the canonical form. -/
theorem memWrite2_wf (m : Memory) (a : Nat) (v : Half) (h : m.wf = true) : Memory.wf (memWrite2 m a v) = true :=
  memWrite_wf _ _ _ (memWrite_wf _ _ _ h)

/-- Writing a list of bytes keeps the canonical form. -/
theorem memWriteList_wf (m : Memory) (a : Nat) (bytes : List Byte) (h : m.wf = true) :
    Memory.wf (memWriteList m a bytes) = true := by
  induction bytes generalizing m a with
  | nil => exact h
  | cons v rest ih => exact ih _ _ (memWrite_wf m a v h)

/-- What every byte is after a list of bytes was written inside memory. -/
theorem memRead_memWriteList (m : Memory) (a b : Nat) (bytes : List Byte)
    (h : a + bytes.length ≤ Config.memSize) :
    memRead (memWriteList m a bytes) b =
      if a ≤ b ∧ b < a + bytes.length then bytes.getD (b - a) 0#8 else memRead m b := by
  induction bytes generalizing m a with
  | nil => simp [memWriteList]
  | cons v rest ih =>
    simp only [List.length_cons] at h ⊢
    simp only [memWriteList]
    rw [ih (memWrite m a v) (a + 1) (by omega), memRead_memWrite]
    by_cases h1 : b = a
    · subst h1
      have : b < Config.memSize := by omega
      simp [this]
    · by_cases h2 : a + 1 ≤ b ∧ b < a + 1 + rest.length
      · have h3 : a ≤ b ∧ b < a + (rest.length + 1) := by omega
        have h4 : b - a = (b - (a + 1)) + 1 := by omega
        simp [h2, h3, h4]
      · have h3 : ¬(a ≤ b ∧ b < a + (rest.length + 1)) := by omega
        rw [if_neg h2, if_neg h3, if_neg (by simp [h1])]

theorem imageCells_cellsWf (a : Nat) (image : List Byte) (h : a + image.length ≤ Config.memSize) :
    cellsWf a (imageCells a image) = true := by
  induction image generalizing a with
  | nil => rfl
  | cons v rest ih =>
    simp only [List.length_cons] at h
    have hrest := ih (a + 1) (by omega)
    by_cases hv : v = unlistedByte
    · simp only [imageCells, hv, if_true]
      exact cellsWf_mono _ _ _ hrest (by omega)
    · simp only [imageCells, hv, if_false, cellsWf, Bool.and_eq_true, decide_eq_true_eq]
      exact ⟨⟨⟨Nat.le_refl a, by omega⟩, hv⟩, hrest⟩

/-- The memory of an image that fits is in canonical form. -/
theorem imageCells_wf (image : List Byte) (h : imageFits image = true) : Memory.wf (imageCells 0 image) = true :=
  imageCells_cellsWf 0 image (by simpa [imageFits] using h)

theorem cellsRead_imageCells (a b : Nat) (image : List Byte) (h : a + image.length ≤ Config.memSize) :
    cellsRead (imageCells a image) b = if a ≤ b then image.getD (b - a) 0#8 else 0#8 := by
  induction image generalizing a with
  | nil => simp [imageCells, cellsRead, unlistedByte_eq]
  | cons v rest ih =>
    simp only [List.length_cons] at h
    have hih := ih (a + 1) (by omega)
    have hwf := imageCells_cellsWf (a + 1) rest (by omega)
    by_cases hb : b = a
    · subst hb
      by_cases hv : v = unlistedByte
      · simp only [imageCells, hv, if_true, Nat.le_refl, Nat.sub_self, List.getD_cons_zero]
        exact cellsRead_below _ _ _ hwf (by omega)
      · simp [imageCells, hv, cellsRead]
    · have hcell : cellsRead (imageCells a (v :: rest)) b = cellsRead (imageCells (a + 1) rest) b := by
        by_cases hv : v = unlistedByte
        · simp only [imageCells, hv, if_true]
        · simp only [imageCells, hv, if_false, cellsRead, hb]
      rw [hcell, hih]
      by_cases hle : a ≤ b
      · have h1 : a + 1 ≤ b := by omega
        have h2 : b - a = (b - (a + 1)) + 1 := by omega
        simp [hle, h1, h2]
      · have h1 : ¬ a + 1 ≤ b := by omega
        simp [hle, h1]

/-- What every byte of memory is after a load: the image's byte, or 0x00 after its end
(70_reset_and_hazards.md R115). -/
theorem memRead_imageCells (image : List Byte) (h : imageFits image = true) (a : Nat) :
    memRead (imageCells 0 image) a = image.getD a 0#8 := by
  have hlen : image.length ≤ Config.memSize := by simpa [imageFits] using h
  by_cases ha : a < Config.memSize
  · simp [memRead, ha, cellsRead_imageCells 0 a image (by omega)]
  · rw [memRead_above _ _ (by omega), List.getD_eq_default image 0#8 (by omega)]

end Sys2Proof.Machine
end

