-- ==== Sys2Proof/Laws/State.lean ====
section
/-! SUPPORT. For each update of State, what each field is after it: the simp set that keeps later proofs from unfolding
a record update. -/

namespace Sys2Proof.Machine

@[simp] theorem setMem_params (s : State) (m : Memory) : (s.setMem m).params = s.params := rfl
@[simp] theorem setMem_mem (s : State) (m : Memory) : (s.setMem m).mem = m := rfl
@[simp] theorem setMem_pc (s : State) (m : Memory) : (s.setMem m).pc = s.pc := rfl
@[simp] theorem setMem_phase (s : State) (m : Memory) : (s.setMem m).phase = s.phase := rfl
@[simp] theorem setMem_cnt (s : State) (m : Memory) : (s.setMem m).cnt = s.cnt := rfl
@[simp] theorem setMem_gfxPage (s : State) (m : Memory) : (s.setMem m).gfxPage = s.gfxPage := rfl
@[simp] theorem setMem_audioReg (s : State) (m : Memory) : (s.setMem m).audioReg = s.audioReg := rfl
@[simp] theorem setMem_host (s : State) (m : Memory) : (s.setMem m).host = s.host := rfl
@[simp] theorem setMem_loads (s : State) (m : Memory) : (s.setMem m).loads = s.loads := rfl

@[simp] theorem setPc_params (s : State) (target : Addr) : (s.setPc target).params = s.params := rfl
@[simp] theorem setPc_mem (s : State) (target : Addr) : (s.setPc target).mem = s.mem := rfl
@[simp] theorem setPc_pc (s : State) (target : Addr) : (s.setPc target).pc = target := rfl
@[simp] theorem setPc_phase (s : State) (target : Addr) : (s.setPc target).phase = s.phase := rfl
@[simp] theorem setPc_cnt (s : State) (target : Addr) : (s.setPc target).cnt = s.cnt := rfl
@[simp] theorem setPc_gfxPage (s : State) (target : Addr) : (s.setPc target).gfxPage = s.gfxPage := rfl
@[simp] theorem setPc_audioReg (s : State) (target : Addr) : (s.setPc target).audioReg = s.audioReg := rfl
@[simp] theorem setPc_host (s : State) (target : Addr) : (s.setPc target).host = s.host := rfl
@[simp] theorem setPc_loads (s : State) (target : Addr) : (s.setPc target).loads = s.loads := rfl

@[simp] theorem setPhase_params (s : State) (p : Phase) : (s.setPhase p).params = s.params := rfl
@[simp] theorem setPhase_mem (s : State) (p : Phase) : (s.setPhase p).mem = s.mem := rfl
@[simp] theorem setPhase_pc (s : State) (p : Phase) : (s.setPhase p).pc = s.pc := rfl
@[simp] theorem setPhase_phase (s : State) (p : Phase) : (s.setPhase p).phase = p := rfl
@[simp] theorem setPhase_cnt (s : State) (p : Phase) : (s.setPhase p).cnt = s.cnt := rfl
@[simp] theorem setPhase_gfxPage (s : State) (p : Phase) : (s.setPhase p).gfxPage = s.gfxPage := rfl
@[simp] theorem setPhase_audioReg (s : State) (p : Phase) : (s.setPhase p).audioReg = s.audioReg := rfl
@[simp] theorem setPhase_host (s : State) (p : Phase) : (s.setPhase p).host = s.host := rfl
@[simp] theorem setPhase_loads (s : State) (p : Phase) : (s.setPhase p).loads = s.loads := rfl

@[simp] theorem setCnt_params (s : State) (n : Nat) : (s.setCnt n).params = s.params := rfl
@[simp] theorem setCnt_mem (s : State) (n : Nat) : (s.setCnt n).mem = s.mem := rfl
@[simp] theorem setCnt_pc (s : State) (n : Nat) : (s.setCnt n).pc = s.pc := rfl
@[simp] theorem setCnt_phase (s : State) (n : Nat) : (s.setCnt n).phase = s.phase := rfl
@[simp] theorem setCnt_cnt (s : State) (n : Nat) : (s.setCnt n).cnt = n := rfl
@[simp] theorem setCnt_gfxPage (s : State) (n : Nat) : (s.setCnt n).gfxPage = s.gfxPage := rfl
@[simp] theorem setCnt_audioReg (s : State) (n : Nat) : (s.setCnt n).audioReg = s.audioReg := rfl
@[simp] theorem setCnt_host (s : State) (n : Nat) : (s.setCnt n).host = s.host := rfl
@[simp] theorem setCnt_loads (s : State) (n : Nat) : (s.setCnt n).loads = s.loads := rfl

@[simp] theorem setOutputs_params (s : State) (page : Byte) (audio : Half) : (s.setOutputs page audio).params = s.params := rfl
@[simp] theorem setOutputs_mem (s : State) (page : Byte) (audio : Half) : (s.setOutputs page audio).mem = s.mem := rfl
@[simp] theorem setOutputs_pc (s : State) (page : Byte) (audio : Half) : (s.setOutputs page audio).pc = s.pc := rfl
@[simp] theorem setOutputs_phase (s : State) (page : Byte) (audio : Half) : (s.setOutputs page audio).phase = s.phase := rfl
@[simp] theorem setOutputs_cnt (s : State) (page : Byte) (audio : Half) : (s.setOutputs page audio).cnt = s.cnt := rfl
@[simp] theorem setOutputs_gfxPage (s : State) (page : Byte) (audio : Half) : (s.setOutputs page audio).gfxPage = page := rfl
@[simp] theorem setOutputs_audioReg (s : State) (page : Byte) (audio : Half) : (s.setOutputs page audio).audioReg = audio := rfl
@[simp] theorem setOutputs_host (s : State) (page : Byte) (audio : Half) : (s.setOutputs page audio).host = s.host := rfl
@[simp] theorem setOutputs_loads (s : State) (page : Byte) (audio : Half) : (s.setOutputs page audio).loads = s.loads := rfl

@[simp] theorem setHost_params (s : State) (moves : List HostMove) : (s.setHost moves).params = s.params := rfl
@[simp] theorem setHost_mem (s : State) (moves : List HostMove) : (s.setHost moves).mem = s.mem := rfl
@[simp] theorem setHost_pc (s : State) (moves : List HostMove) : (s.setHost moves).pc = s.pc := rfl
@[simp] theorem setHost_phase (s : State) (moves : List HostMove) : (s.setHost moves).phase = s.phase := rfl
@[simp] theorem setHost_cnt (s : State) (moves : List HostMove) : (s.setHost moves).cnt = s.cnt := rfl
@[simp] theorem setHost_gfxPage (s : State) (moves : List HostMove) : (s.setHost moves).gfxPage = s.gfxPage := rfl
@[simp] theorem setHost_audioReg (s : State) (moves : List HostMove) : (s.setHost moves).audioReg = s.audioReg := rfl
@[simp] theorem setHost_host (s : State) (moves : List HostMove) : (s.setHost moves).host = moves := rfl
@[simp] theorem setHost_loads (s : State) (moves : List HostMove) : (s.setHost moves).loads = s.loads := rfl

end Sys2Proof.Machine
end

