-- ==== Sys2Proof/Laws/CopyJump.lean ====
section
/-! SUPPORT. What the meaning of BBJ does to each field, said once. -/

namespace Sys2Proof.Machine

/-- The memory after a BBJ: its one store, nothing else (40_copy_jump.md R60). -/
theorem copyAndJump_mem (source destination jump : Addr) (s : State) :
    (copyAndJump source destination jump s).mem =
      memWrite s.mem destination.toNat (memRead s.mem source.toNat) := rfl

theorem copyAndJump_pc (source destination jump : Addr) (s : State) :
    (copyAndJump source destination jump s).pc =
      if s.params.jumpAfterCopy then
        memRead3 (copyAndJump source destination jump s).mem (s.pc.toNat + 6)
      else jump := rfl

@[simp] theorem copyAndJump_params (source destination jump : Addr) (s : State) :
    (copyAndJump source destination jump s).params = s.params := rfl

@[simp] theorem copyAndJump_phase (source destination jump : Addr) (s : State) :
    (copyAndJump source destination jump s).phase = s.phase := rfl

@[simp] theorem copyAndJump_cnt (source destination jump : Addr) (s : State) :
    (copyAndJump source destination jump s).cnt = s.cnt := rfl

@[simp] theorem copyAndJump_gfxPage (source destination jump : Addr) (s : State) :
    (copyAndJump source destination jump s).gfxPage = s.gfxPage := rfl

@[simp] theorem copyAndJump_audioReg (source destination jump : Addr) (s : State) :
    (copyAndJump source destination jump s).audioReg = s.audioReg := rfl

@[simp] theorem copyAndJump_host (source destination jump : Addr) (s : State) :
    (copyAndJump source destination jump s).host = s.host := rfl

@[simp] theorem copyAndJump_loads (source destination jump : Addr) (s : State) :
    (copyAndJump source destination jump s).loads = s.loads := rfl

/-- A BBJ keeps the canonical form of memory. -/
theorem copyAndJump_wf (source destination jump : Addr) (s : State) (h : s.mem.wf = true) :
    Memory.wf (copyAndJump source destination jump s).mem = true := memWrite_wf _ _ _ h

/-- The one instruction's arm is its meaning. -/
theorem exec_bbj (source destination jump : Addr) (s : State) :
    exec (.bbj source destination jump) s = .next (copyAndJump source destination jump s) := rfl

end Sys2Proof.Machine
end

