-- ==== Sys2Proof/Laws/PerInstr.lean ====
section
/-! SUPPORT. Statements made instruction by instruction: every instruction is nine bytes long
(30_encoding.md R50, R54). -/

namespace Sys2Proof.Laws

/-- A field is three bytes (00_scope.md R4). -/
theorem fieldBytes_length (field : Addr) : (fieldBytes field).length = Config.fieldBytes := rfl

/-- The encoding of an instruction has the one length (30_encoding.md R50). -/
def EncodedLength.Statement (i : Instr) : Prop := (encode i).length = Config.instrBytes

theorem EncodedLength.bbj (source destination jump : Addr) :
    EncodedLength.Statement (.bbj source destination jump) := rfl

end Sys2Proof.Laws
end

