-- ==== Sys2Proof/Laws/Sequencer.lean ====
section
/-! SUPPORT. One lemma for each operation of the frame sequencer: everything it can do. -/

namespace Sys2Proof.Machine

/-- What every byte is after the key latch: bytes 0 and 1 hold the keys, the others are as before. -/
theorem memRead_keyLatch (keys : Half) (s : State) (b : Nat) :
    memRead (keyLatch keys s).mem b =
      if b = 0 then keys.extractLsb' 8 8 else if b = 1 then keys.extractLsb' 0 8 else memRead s.mem b :=
  memRead_memWrite2 s.mem 0 b keys (by decide)

/-- The key latch leaves the reset vector alone, so its order with FRAME_RESET does not matter
(41_frame_sequencer.md R76). -/
theorem resetVector_keyLatch (keys : Half) (s : State) :
    resetVector (keyLatch keys s).mem = resetVector s.mem := by
  simp [resetVector, memRead3, Config.vecAddr, memRead_keyLatch]

/-- A frame start in full. -/
theorem frameStart_eq (keys : Half) (s : State) :
    frameStart keys s =
      { s with
        mem := (keyLatch keys s).mem, pc := resetVector (keyLatch keys s).mem, phase := .run, cnt := 0 } := rfl

theorem frameStart_pc (keys : Half) (s : State) : (frameStart keys s).pc = resetVector s.mem :=
  resetVector_keyLatch keys s

theorem frameStart_wf (keys : Half) (s : State) (h : s.mem.wf = true) :
    Memory.wf (frameStart keys s).mem = true := memWrite2_wf s.mem Config.keyAddr keys h

/-- A frame end in full. -/
theorem frameEnd_eq (s : State) :
    frameEnd s =
      { s with gfxPage := planeBase s.mem, audioReg := audioRegister s.mem, phase := .idle } := rfl

@[simp] theorem frameEnd_params (s : State) : (frameEnd s).params = s.params := rfl
@[simp] theorem frameEnd_mem (s : State) : (frameEnd s).mem = s.mem := rfl
@[simp] theorem frameEnd_pc (s : State) : (frameEnd s).pc = s.pc := rfl
@[simp] theorem frameEnd_phase (s : State) : (frameEnd s).phase = .idle := rfl
@[simp] theorem frameEnd_cnt (s : State) : (frameEnd s).cnt = s.cnt := rfl
@[simp] theorem frameEnd_host (s : State) : (frameEnd s).host = s.host := rfl
@[simp] theorem frameEnd_loads (s : State) : (frameEnd s).loads = s.loads := rfl

/-- While budget is left the divider does nothing. -/
theorem endIfSpent_left (s : State) (h : s.cnt < s.params.nSteps) : endIfSpent s = s := by
  simp [endIfSpent, h]

/-- With the budget spent the frame ends. -/
theorem endIfSpent_spent (s : State) (h : s.params.nSteps ≤ s.cnt) : endIfSpent s = frameEnd s := by
  simp [endIfSpent, Nat.not_lt.mpr h]

/-- The divider touches neither memory, program counter, count, parameters, nor the host's moves. -/
theorem endIfSpent_frame (s : State) :
    (endIfSpent s).params = s.params ∧ (endIfSpent s).mem = s.mem ∧ (endIfSpent s).pc = s.pc ∧
      (endIfSpent s).cnt = s.cnt ∧ (endIfSpent s).host = s.host ∧ (endIfSpent s).loads = s.loads := by
  unfold endIfSpent
  split <;> exact ⟨rfl, rfl, rfl, rfl, rfl, rfl⟩

/-- A counted step goes on in the frame, or ends it. -/
theorem countStep_cases (s : State) :
    (s.cnt + 1 < s.params.nSteps ∧ countStep s = s.setCnt (s.cnt + 1)) ∨
      (s.params.nSteps ≤ s.cnt + 1 ∧ countStep s = frameEnd (s.setCnt (s.cnt + 1))) := by
  by_cases h : s.cnt + 1 < s.params.nSteps
  · exact .inl ⟨h, endIfSpent_left _ h⟩
  · exact .inr ⟨by omega, endIfSpent_spent _ (by simpa using h)⟩

/-- A LOAD creates a machine when the image fits and faults when it does not; it does nothing else. -/
theorem loadImage_cases (image : List Byte) (s : State) :
    (image.length ≤ Config.memSize ∧ loadImage image s = .next (createdState image s)) ∨
      (Config.memSize < image.length ∧ loadImage image s = .fault (.imageTooLarge image.length)) := by
  by_cases h : image.length ≤ Config.memSize
  · exact .inl ⟨h, by simp [loadImage, imageFits, h]⟩
  · exact .inr ⟨by omega, by simp [loadImage, imageFits, h]⟩

end Sys2Proof.Machine
end

