-- ==== Sys2Proof/Laws/Step.lean ====
section
/-! SUPPORT. Everything one step can do, said once; later proofs take a step apart with these. -/

namespace Sys2Proof.Machine

/-- Every instruction is a BBJ, so executing one is one copy and jump. -/
theorem exec_next (i : Instr) (s : State) :
    ∃ source destination jump, i = .bbj source destination jump ∧
      exec i s = .next (copyAndJump source destination jump s) := by
  cases i with
  | bbj source destination jump => exact ⟨source, destination, jump, rfl, rfl⟩

/-- A step while running with budget left: the fetched BBJ, then counted. -/
theorem step_run (s : State) (hp : s.phase = .run) (hc : s.cnt < s.params.nSteps)
    {source destination jump : Addr} (hi : fetchInstr s = .bbj source destination jump) :
    step s = .next (countStep (copyAndJump source destination jump s)) := by
  simp [step, hp, hc, hi, exec_bbj]

/-- A step while running with the budget spent only ends the frame; no run reaches such a state. -/
theorem step_spent (s : State) (hp : s.phase = .run) (hc : s.params.nSteps ≤ s.cnt) :
    step s = .next (frameEnd s) := by
  simp [step, hp, Nat.not_lt.mpr hc]

/-- A step while idle is the host's turn. -/
theorem step_idle (s : State) (hp : s.phase = .idle) : step s = hostTurn s := by
  simp [step, hp]

/-- The inversion of a step that answers a next state. -/
theorem step_cases {s t : State} (h : step s = .next t) :
    (s.phase = .run ∧ s.cnt < s.params.nSteps ∧
      ∃ source destination jump, fetchInstr s = .bbj source destination jump ∧
        t = countStep (copyAndJump source destination jump s)) ∨
    (s.phase = .run ∧ s.params.nSteps ≤ s.cnt ∧ t = frameEnd s) ∨
    (s.phase = .idle ∧ s.host = [] ∧ t = s) ∨
    (s.phase = .idle ∧ ∃ keys rest, s.host = .frameGo keys :: rest ∧
      t = endIfSpent (frameStart keys (s.setHost rest))) ∨
    (s.phase = .idle ∧ ∃ image rest, s.host = .load image :: rest ∧ image.length ≤ Config.memSize ∧
      t = createdState image (s.setHost rest)) := by
  cases hp : s.phase with
  | run =>
    by_cases hc : s.cnt < s.params.nSteps
    · cases hi : fetchInstr s with
      | bbj source destination jump =>
        rw [step_run s hp hc hi] at h
        exact .inl ⟨rfl, hc, source, destination, jump, rfl, (Host.Outcome.next.inj h).symm⟩
    · rw [step_spent s hp (by omega)] at h
      exact .inr (.inl ⟨rfl, by omega, (Host.Outcome.next.inj h).symm⟩)
  | idle =>
    rw [step_idle s hp] at h
    unfold hostTurn at h
    split at h
    · exact .inr (.inr (.inl ⟨rfl, ‹_›, (Host.Outcome.next.inj h).symm⟩))
    · rename_i keys rest heq
      refine .inr (.inr (.inr (.inl ⟨rfl, keys, rest, heq, ?_⟩)))
      simpa [frameGo, hp] using (Host.Outcome.next.inj h).symm
    · rename_i image rest heq
      rcases loadImage_cases image (s.setHost rest) with ⟨hl, hn⟩ | ⟨-, hn⟩
      · rw [hn] at h
        exact .inr (.inr (.inr (.inr ⟨rfl, image, rest, heq, hl, (Host.Outcome.next.inj h).symm⟩)))
      · rw [hn] at h
        cases h

/-- Many steps go through a first one that answers a next state. -/
theorem stepMany_succ {s t : State} (k : Nat) (h : step s = .next t) : stepMany (k + 1) s = stepMany k t := by
  simp [stepMany, h]

/-- If many steps answer a next state, so does the first of them. -/
theorem stepMany_succ_inv {s u : State} (k : Nat) (h : stepMany (k + 1) s = .next u) :
    ∃ t, step s = .next t ∧ stepMany k t = .next u := by
  unfold stepMany at h
  split at h
  · exact ⟨_, ‹_›, h⟩
  · cases h
  · cases h

/-- Steps in a row: what many steps and then more of them answer. -/
theorem stepMany_add {s t : State} (a b : Nat) (h : stepMany a s = .next t) :
    stepMany (a + b) s = stepMany b t := by
  induction a generalizing s with
  | zero =>
    cases h
    rw [Nat.zero_add]
  | succ a ih =>
    obtain ⟨u, hu, hrest⟩ := stepMany_succ_inv a h
    rw [Nat.add_right_comm, stepMany_succ _ hu]
    exact ih hrest

/-- The host's run goes through a first step that answers a next state. -/
theorem core_run_succ (M : Host.Core) (k : Nat) (s t : M.State) (h : M.step s = .next t) :
    M.run (k + 1) s = M.run k t := by
  simp [Host.Core.run, h]

/-- The host's run stops at a fault. -/
theorem core_run_fault (M : Host.Core) (k : Nat) (s : M.State) (r : M.Fault) (h : M.step s = .fault r) :
    M.run (k + 1) s = .fault r := by
  simp [Host.Core.run, h]

/-- The host's run stops at a refusal. -/
theorem core_run_refused (M : Host.Core) (k : Nat) (s : M.State) (r : M.Refusal) (h : M.step s = .refused r) :
    M.run (k + 1) s = .refused r := by
  simp [Host.Core.run, h]

/-- Many steps are the host's run of the machine. -/
theorem stepMany_eq_run (k : Nat) (s : State) : stepMany k s = Host.Core.run Sys2Proof.core k s := by
  induction k generalizing s with
  | zero => rfl
  | succ k ih =>
    unfold stepMany
    cases h : step s with
    | next t => exact (ih t).trans (core_run_succ Sys2Proof.core k s t h).symm
    | fault r => exact (core_run_fault Sys2Proof.core k s r h).symm
    | refused r => exact (core_run_refused Sys2Proof.core k s r h).symm
/-- The probe's instruction is what the very next step fetches, at every state and for every word. -/
theorem fetchBytes_withFetchWord (s : State) (nbits w : Nat) :
    fetchBytes (s.withFetchWord nbits w) = tableWordBytes nbits w := by
  have hpc : (probePc s).toNat + 9 ≤ Config.memSize := by
    unfold probePc
    split
    · split
      · simpa [Config.instrBytes] using ‹_›
      · decide
    · decide
  have hlen : (tableWordBytes nbits w).length = 9 := rfl
  have hread : ∀ k, k < 9 →
      memRead (s.withFetchWord nbits w).mem ((s.withFetchWord nbits w).pc.toNat + k) =
        (tableWordBytes nbits w).getD k 0#8 := by
    intro k hk
    change memRead (memWriteList s.mem (probePc s).toNat (tableWordBytes nbits w)) ((probePc s).toNat + k) = _
    rw [memRead_memWriteList _ _ _ _ (by omega), if_pos (by omega), Nat.add_sub_cancel_left]
  have h0 := hread 0 (by omega)
  rw [Nat.add_zero] at h0
  simp only [fetchBytes, h0, hread 1 (by omega), hread 2 (by omega), hread 3 (by omega), hread 4 (by omega),
    hread 5 (by omega), hread 6 (by omega), hread 7 (by omega), hread 8 (by omega)]
  rfl

/-- The probe's state is running with a step of its budget left. -/
theorem withFetchWord_runs (s : State) (nbits w : Nat) :
    (s.withFetchWord nbits w).phase = .run ∧
      (s.withFetchWord nbits w).cnt < (s.withFetchWord nbits w).params.nSteps := by
  refine ⟨rfl, ?_⟩
  have hpos : 0 < (probeParams s.params).nSteps := by
    unfold probeParams
    split
    · exact (by decide : 0 < Params.default.nSteps)
    · omega
  change (if s.cnt < (probeParams s.params).nSteps then s.cnt else 0) < (probeParams s.params).nSteps
  split
  · assumption
  · exact hpos

end Sys2Proof.Machine
end

