-- ==== Sys2Proof/Machine/Flags.lean ====
section
/-! DEFINITION. Nothing: the hardware has no flags, condition codes or predicates, and no instruction computes one
(10_state.md R16, 40_copy_jump.md R64). The file stands so that a reader who looks for flags finds that sentence. -/
end

