-- ==== Sys2Proof/Tests/Slice0.lean ====
section
/-! SUPPORT. Small tests, one step each, expected results from 95_test_vectors.md (the vector is named in each
docstring), and for every statement with hypotheses a witness that meets them. -/

namespace Sys2Proof.Tests

open Sys2Proof.Machine

/-! ### States for the tests -/

/-- A machine inside a frame: these cells, this program counter, nothing else set. -/
def running (m : Memory) (pc : Addr) : State where
  params := Params.default
  mem := m
  pc := pc
  phase := .run
  cnt := 0
  gfxPage := 0#8
  audioReg := 0#16
  host := []
  loads := 0

/-- An instruction at the program counter of a machine inside a frame, with these cells beside it. -/
def fetching (pc : Addr) (source destination jump : Addr) (m : Memory) : State :=
  running (memWriteList m pc.toNat (encode (.bbj source destination jump))) pc

/-- A machine between frames with a step budget, cells and the host's moves. -/
def waiting (budget : Nat) (m : Memory) (moves : List HostMove) : State :=
  { (running m 0#24).setHost moves with phase := .idle, params := ⟨budget, false⟩ }

/-- What a function sees of the next state; none for a stop. -/
def seen {α : Type} (o : Host.Outcome State Fault Refusal) (f : State → α) : Option α :=
  match o with
  | .next t => some (f t)
  | .fault _ => none
  | .refused _ => none

/-- `s` with the non-default order of jump read and write. -/
def jumpLate (s : State) : State := { s with params := ⟨65536, true⟩ }

/-- The image of the document's concrete scenario (E1), 27 bytes. -/
def e1Image : List Byte :=
  [0, 0, 0, 0, 8, 0, 0, 0] ++ [0, 0, 0x14, 0, 0, 0x19, 0, 0] ++ [0x11, 0, 0, 0, 1, 0, 0, 0] ++ [0, 0, 0]

/-- Program P1 of 95_test_vectors.md in the assembler notation. -/
def p1Source : List SourceLine :=
  [⟨[], some 2, .db [0, 0, 8]⟩, ⟨[], none, .db [1]⟩,
    ⟨[], some 8, .bbj (.number 1) (.number 0x010000) (.label "b")⟩] ++
  [⟨["b"], none, .bbj (.number 0) (.number 0x010001) (.label "idle")⟩,
    ⟨["idle"], none, .bbj (.label "idle") (.label "idle") (.label "idle")⟩]

/-- The memory of program P1 (35 bytes). -/
def p1Memory : Memory :=
  imageCells 0
    ([0, 0, 0, 0, 8, 1, 0, 0] ++ [0, 0, 1, 1, 0, 0, 0, 0] ++ [0x11, 0, 0, 0, 1, 0, 1, 0] ++
      [0, 0x1A, 0, 0, 0x1A, 0, 0, 0x1A] ++ [0, 0, 0x1A])

/-! ### Well-formedness: a term each check refuses -/

theorem test_operand_of_2_pow_24_is_refused :
    operandFits 16777216 = false ∧ operandFits 16777215 = true := by decide

theorem test_db_byte_of_256_is_refused : dbFits [0, 256] = false ∧ dbFits [0, 255] = true := by decide

/-- L3 and L4: an image of 2^24 bytes is accepted, of 2^24 + 1 refused. -/
theorem test_image_over_2_pow_24_is_refused (image : List Byte) :
    (image.length = 16777216 → imageFits image = true) ∧ (image.length = 16777217 → imageFits image = false) := by
  refine ⟨fun h => ?_, fun h => ?_⟩ <;> rw [imageFits, h] <;> rfl

theorem test_every_instruction_is_well_formed :
    (Instr.bbj 0#24 0#24 0#24).wf = true ∧ (Instr.bbj 0xFFFFFF#24 0xFFFFFF#24 0xFFFFFF#24).wf = true := by decide

theorem test_misplaced_memory_is_not_canonical :
    Memory.wf [(5, 1#8), (3, 1#8)] = false ∧ Memory.wf [(5, 0#8)] = false ∧
      Memory.wf [(16777216, 1#8)] = false ∧ Memory.wf [(3, 1#8), (5, 1#8)] = true := by decide

/-! ### Decoding and encoding -/

/-- The word of E1, bit by bit from the format table: source 0x000014, destination 0x000019, jump 0x000011. -/
theorem test_decode_e1 :
    decode [0b00000000#8, 0b00000000#8, 0b00010100#8, 0b00000000#8, 0b00000000#8, 0b00011001#8, 0b00000000#8,
      0b00000000#8, 0b00010001#8] = .ok (.bbj 20#24 25#24 17#24, []) := by decide

/-- V2: all nine bytes differ, so each byte's place shows. -/
theorem test_decode_v2 :
    decode [0x12#8, 0x34#8, 0x56#8, 0xAB#8, 0xCD#8, 0xEF#8, 0xFE#8, 0xDC#8, 0xBA#8, 0x77#8] =
      .ok (.bbj 0x123456#24 0xABCDEF#24 0xFEDCBA#24, [0x77#8]) := by decide

theorem test_encode_v2 :
    encode (.bbj 0x123456#24 0xABCDEF#24 0xFEDCBA#24) =
      [0x12#8, 0x34#8, 0x56#8, 0xAB#8, 0xCD#8, 0xEF#8, 0xFE#8, 0xDC#8, 0xBA#8] := by decide

theorem test_decode_refuses_eight_bytes :
    decode [0#8, 0#8, 0#8, 0#8, 0#8, 0#8, 0#8, 0#8] = .error (.truncated 8) := by decide

/-- The table's numbering: bit 71 is the top bit of byte 0, bit 0 the low bit of byte 8. -/
theorem test_table_word :
    decodeTableWord 72 0x123456ABCDEFFEDCBA = some (.bbj 0x123456#24 0xABCDEF#24 0xFEDCBA#24) := by decide

/-- P1's bytes and addresses from its lines; a label nothing defines is refused. -/
theorem test_assemble_p1 :
    assemble p1Source =
      some [(2, [0, 0, 8]), (5, [1]), (8, [0, 0, 1, 1, 0, 0, 0, 0, 0x11]),
        (0x11, [0, 0, 0, 1, 0, 1, 0, 0, 0x1A]), (0x1A, [0, 0, 0x1A, 0, 0, 0x1A, 0, 0, 0x1A])] ∧
    assemble [⟨[], none, .bbj (.label "x") (.number 0) (.number 0)⟩] = none := by decide

/-! ### Memory primitives -/

/-- M1, M2, M6: big-endian reads, the last two through the pad. -/
theorem test_memRead3 :
    memRead3 [(2, 0x12#8), (3, 0x34#8), (4, 0x56#8)] 2 = 0x123456#24 ∧
      memRead3 [(0xFFFFFE, 0xAB#8), (0xFFFFFF, 0xCD#8)] 0xFFFFFE = 0xABCD00#24 ∧
      memRead3 [(0xFFFFFF, 0x7F#8)] 0xFFFFFF = 0x7F0000#24 := by decide

/-- M4, M5. -/
theorem test_memWrite2 :
    memWrite2 [] 0 0x8421#16 = [(0, 0x84#8), (1, 0x21#8)] ∧ memRead2 [(6, 0xBE#8), (7, 0xEF#8)] 6 = 0xBEEF#16 := by
  decide

/-- Writing what an unlisted byte reads as takes the cell away. -/
theorem test_write_of_zero_unlists : memWrite [(5, 1#8), (7, 2#8)] 5 0#8 = [(7, 2#8)] := by decide

/-! ### The instruction -/

/-- V1: a plain copy and jump; the old byte at the destination is lost. -/
theorem test_bbj_v1 :
    seen (step (fetching 0x100 0x200 0x300 0x109 [(0x200, 0x5A#8), (0x300, 0xFF#8)]))
      (fun t => (memRead t.mem 0x300, memRead t.mem 0x200, t.pc, t.cnt)) =
      some (0x5A#8, 0x5A#8, 0x109#24, 1) := by decide

/-- V3: a store into the own jump field, in both orders. -/
theorem test_bbj_v3 :
    seen (step (fetching 0x10 0x30 0x18 0x20 [(0x30, 0x77#8)])) (fun t => (memRead t.mem 0x18, t.pc)) =
        some (0x77#8, 0x20#24) ∧
      seen (step (jumpLate (fetching 0x10 0x30 0x18 0x20 [(0x30, 0x77#8)]))) (fun t => (memRead t.mem 0x18, t.pc)) =
        some (0x77#8, 0x77#24) := by decide

/-! ### The sequencer and the decoder -/

/-- E1: LOAD, and FRAME_RESET of the loaded image. -/
theorem test_load_e1 :
    seen (step (waiting 65536 [] [.load e1Image])) (fun t => (t.phase, t.cnt, memRead t.mem 20, (frameReset t).pc)) =
      some (.idle, 0, 1#8, 8#24) := by decide

/-- S4: with no step budget a frame is the key latch and FRAME_RESET, and the outputs are sampled. -/
theorem test_frame_without_steps_s4 :
    seen (step (waiting 0 p1Memory [.frameGo 0x8421#16]))
      (fun t => (memRead t.mem 0, memRead t.mem 1, t.pc, t.gfxPage, t.phase)) =
      some (0x84#8, 0x21#8, 8#24, 1#8, .idle) := by decide

/-- S5, after the frame start: the one step of the budget ends the frame. -/
theorem test_last_step_s5 :
    seen (step { frameStart 0x8421#16 (waiting 1 p1Memory []) with phase := .run })
      (fun t => (memRead t.mem 0x10000, memRead t.mem 0x10001, t.pc, t.gfxPage, t.phase)) =
      some (0x21#8, 0#8, 0x11#24, 1#8, .idle) := by decide

/-- S6: the whole frame of two steps as RUN_FRAME. -/
theorem test_runFrame_s6 :
    (let t := runFrame 0x8421#16 (waiting 2 p1Memory []);
      (memRead t.mem 0x10000, memRead t.mem 0x10001, t.pc, t.phase)) = (0x21#8, 0x84#8, 0x1A#24, .idle) := by decide

/-- K3, K4: where a key's bit lands. -/
theorem test_key_latch_k3_k4 :
    (keyLatch 0x8000#16 (waiting 1 [] [])).mem = [(0, 0x80#8)] ∧
      (keyLatch 0x0081#16 (waiting 1 [] [])).mem = [(1, 0x81#8)] := by decide

/-- K5, K6, K8 and E6. -/
theorem test_keySet :
    keySet 0x0005#16 9 true = 0x0205#16 ∧ keySet 0x0205#16 0 false = 0x0204#16 ∧
      keySet 0x0204#16 3 false = 0x0204#16 ∧ keySet 0x8001#16 4 true = 0x8011#16 := by decide

/-- E7, G4: pixel addresses. -/
theorem test_pixelAddr :
    pixelAddr 0x00#8 0x12#8 0x34#8 = 0x003412#24 ∧ pixelAddr 0x05#8 0xFF#8 0xFF#8 = 0x05FFFF#24 ∧
      currentPixelAddr [(5, 1#8)] 0x00#8 0x01#8 = 0x010100#24 := by decide

/-- The ports of an idle and of a running machine. -/
theorem test_ports :
    idleOut (waiting 1 [] []) = true ∧ idleOut (running [] 9#24) = false ∧ pcOut (running [] 9#24) = 9#24 ∧
      hostRead (waiting 1 [(6, 0xBE#8)] []) 6#24 = some 0xBE#8 ∧ hostRead (running [(6, 0xBE#8)] 0#24) 6#24 = none := by
  decide

/-- The probe runs the placed instruction as the first after reset. -/
theorem test_probe_runs_first_after_reset :
    seen (step (State.reset.withFetchWord 72 0x123456ABCDEFFEDCBA)) (fun t => (t.pc, t.cnt)) =
      some (0xFEDCBA#24, 1) := by decide

/-! ### Witnesses: for each statement with hypotheses, states and operands that meet them together, at the boundary of
each clause. The name says which statement. -/

theorem witness_PadReadsZeroAndIsNeverWritten :
    (16777216 ≤ 16777216 ∧ 16777216 ≤ 16777223) ∧ 16777216 ≤ 16777223 ∧
      memRead [(0, 1#8)] 16777216 = 0#8 ∧ memRead [(0, 1#8)] 16777223 = 0#8 := by decide

theorem witness_TwoByteWriteReadsBack :
    0 + 1 < 16777216 ∧ 16777214 + 1 < 16777216 ∧
      memRead2 (memWrite2 [] 16777214 0x8421#16) 16777214 = 0x8421#16 := by decide

theorem witness_EqualBytesAreEqualMemories :
    ∃ m m' : Memory, m ≠ [] ∧ m.wf = true ∧ m'.wf = true ∧ ∀ a, a < 16777216 → memRead m a = memRead m' a :=
  ⟨memWrite [(5, 1#8)] 9 2#8, [(5, 1#8), (9, 2#8)], by decide, by decide, by decide, fun _ _ => rfl⟩

theorem witness_EncodeInvertsDecode :
    decode [0#8, 0#8, 1#8, 0#8, 0#8, 2#8, 0#8, 0#8, 3#8, 4#8] = .ok (.bbj 1#24 2#24 3#24, [4#8]) := by decide

/-- V8 (0xFFFFFF) and V9 (0xFFFFF8) on the pad side, V10 (0xFFFFF7) the last whole window. -/
theorem witness_FetchPastTheTopReadsThePad :
    fetchInstr (running [(0xFFFFFF, 0x12#8)] 0xFFFFFF#24) = .bbj 0x120000#24 0#24 0#24 ∧
      (fetchBytes (running [(0xFFFFFF, 0x12#8)] 0xFFFFF8#24))[7]? = some 0x12#8 ∧
      (fetchBytes (running [(0xFFFFFF, 0x12#8)] 0xFFFFF8#24))[8]? = some 0#8 ∧
      (fetchBytes (running [(0xFFFFFF, 0x12#8)] 0xFFFFF7#24))[8]? = some 0x12#8 := by decide

theorem witness_StepRunsTheDecodedInstruction :
    ∃ s i, s.phase = .run ∧ s.cnt < s.params.nSteps ∧ decode (fetchBytes s) = .ok (i, []) :=
  ⟨fetching 0x100 0x200 0x300 0x109 [], .bbj 0x200 0x300 0x109, by decide⟩

theorem witness_BbjFrame :
    ∃ s t, s.params.jumpAfterCopy = false ∧ exec (.bbj 0x200 0x300 0x109) s = .next t :=
  ⟨fetching 0x100 0x200 0x300 0x109 [], _, rfl, rfl⟩

theorem witness_StepIsTheBbjPseudocode :
    ∃ s : State, s.phase = .run ∧ s.cnt < s.params.nSteps ∧ s.params.jumpAfterCopy = false :=
  ⟨fetching 0x100 0x200 0x300 0x109 [(0x200, 0x5A#8)], by decide⟩

/-- V7, in both orders of jump read and write. -/
theorem witness_SelfCopyChangesNoByteAndJumps :
    (let s := fetching 0x1A 0x1A 0x1A 0x1A [];
      s.phase = .run ∧ s.cnt < s.params.nSteps ∧ s.mem.wf = true ∧
        memRead3 s.mem (s.pc.toNat + 3) = memRead3 s.mem s.pc.toNat) ∧
    (let s := jumpLate (fetching 0x1A 0x1A 0x1A 0x1A []);
      s.phase = .run ∧ s.cnt < s.params.nSteps ∧
        memRead3 s.mem (s.pc.toNat + 3) = memRead3 s.mem s.pc.toNat) := by decide

/-- Stores just below (pc+5), at both ends of (pc+6, pc+8), and just above (pc+9) the jump field, with the late order:
the field as stored is used exactly inside. -/
theorem witness_OwnJumpFieldStore :
    seen (step (jumpLate (fetching 0x10 0x30 0x15 0x20 [(0x30, 0x77#8)]))) (·.pc) = some 0x20#24 ∧
      seen (step (jumpLate (fetching 0x10 0x30 0x16 0x20 [(0x30, 0x77#8)]))) (·.pc) = some 0x770020#24 ∧
      seen (step (jumpLate (fetching 0x10 0x30 0x18 0x20 [(0x30, 0x77#8)]))) (·.pc) = some 0x77#24 ∧
      seen (step (jumpLate (fetching 0x10 0x30 0x19 0x20 [(0x30, 0x77#8)]))) (·.pc) = some 0x20#24 := by decide

/-- V11, its first step: the next fetch sees the stored byte 0x31. -/
theorem witness_NextFetchSeesTheStore :
    seen (step (fetching 0x10 0x30 0x1B 0x19 [(0x1E, 0x50#8), (0x21, 0x60#8), (0x30, 0x31#8)])) fetchInstr =
      some (.bbj 0x31#24 0x50#24 0x60#24) := by decide

/-- V8, in both orders. -/
theorem witness_StepAtTheTopOfMemory :
    (let s := running [(0, 0x55#8), (0x120000, 0xAB#8), (0xFFFFFF, 0x12#8)] 0xFFFFFF;
      s.phase = .run ∧ s.cnt < s.params.nSteps ∧
        seen (step s) (fun t => (memRead t.mem 0, t.pc)) = some (0xAB#8, 0#24) ∧
        seen (step (jumpLate s)) (fun t => (memRead t.mem 0, t.pc)) = some (0xAB#8, 0#24)) := by decide

/-- V12 and the two other bytes of the reset vector. -/
theorem witness_StoreToVecWaitsForTheNextFrame :
    seen (step (fetching 0x10 0x30 0x02 0x20 [(4, 8#8), (0x30, 0x44#8)])) (fun t => (t.pc, (frameReset t).pc)) =
        some (0x20#24, 0x440008#24) ∧
      seen (step (fetching 0x10 0x30 0x03 0x20 [(4, 8#8), (0x30, 0x44#8)])) (fun t => (t.pc, (frameReset t).pc)) =
        some (0x20#24, 0x004408#24) ∧
      seen (step (fetching 0x10 0x30 0x04 0x20 [(4, 8#8), (0x30, 0x44#8)])) (fun t => (t.pc, (frameReset t).pc)) =
        some (0x20#24, 0x000044#24) := by decide

/-- The first and the last instruction step of a frame. -/
theorem witness_NoInstructionRaisesAnException :
    (running [] 0#24).cnt < (running [] 0#24).params.nSteps ∧
      ((running [] 0#24).setCnt 65535).cnt < (running [] 0#24).params.nSteps ∧
      seen (step (running [] 0#24)) (·.phase) = some .run ∧
      seen (step ((running [] 0#24).setCnt 65535)) (·.phase) = some .idle := by decide

theorem step_of_a_load (image : List Byte) :
    step (waiting 1 [] [.load image]) = loadImage image (waiting 1 [] []) := rfl

/-- L4: one byte too many stops. -/
theorem witness_ImageTooLargeIsTheOnlyStop :
    ∃ image : List Byte, image.length = 16777217 ∧
      step (waiting 1 [] [.load image]) = .fault (.imageTooLarge image.length) := by
  refine ⟨List.replicate 16777217 0#8, List.length_replicate, ?_⟩
  generalize hi : List.replicate 16777217 0#8 = image
  have hlen : image.length = 16777217 := by rw [← hi, List.length_replicate]
  rw [step_of_a_load]
  rcases loadImage_cases image (waiting 1 [] []) with ⟨h, -⟩ | ⟨-, h⟩
  · rw [memSize_eq] at h
    omega
  · exact h

/-- L3: exactly 2^24 bytes do not. -/
theorem witness_LoadBuildsTheMachine_at_the_limit :
    ∃ image : List Byte, image.length = 16777216 ∧ ∃ t, step (waiting 1 [] [.load image]) = .next t := by
  refine ⟨List.replicate 16777216 0#8, List.length_replicate, ?_⟩
  generalize hi : List.replicate 16777216 0#8 = image
  have hlen : image.length = 16777216 := by rw [← hi, List.length_replicate]
  rw [step_of_a_load]
  rcases loadImage_cases image (waiting 1 [] []) with ⟨-, h⟩ | ⟨h, -⟩
  · exact ⟨_, h⟩
  · rw [memSize_eq] at h
    omega

/-- Each of the three ways to a changed program counter; after the LOAD it is the free value, whatever that is. -/
theorem witness_OnlyBbjFrameStartAndLoadWritePc :
    seen (step (fetching 0x100 0x200 0x300 0x109 [])) (fun t => decide (t.pc ≠ 0x100#24)) = some true ∧
      seen (step (waiting 1 p1Memory [.frameGo 0#16])) (fun t => decide (t.pc ≠ 0#24)) = some true ∧
      ∃ t, step ((waiting 1 [] [.load []]).setPc (Config.pcAfterLoad 1 + 1#24)) = .next t ∧
        t.pc ≠ ((waiting 1 [] [.load []]).setPc (Config.pcAfterLoad 1 + 1#24)).pc := by
  refine ⟨by decide, by decide, _, rfl, ?_⟩
  change Config.pcAfterLoad 1 ≠ Config.pcAfterLoad 1 + 1#24
  bv_omega

/-- A frame start with the least budget that runs, and with none. -/
theorem witness_FrameStartLatchesKeysAndReloadsPc :
    seen (step (waiting 1 p1Memory [.frameGo 0x8421#16])) (fun t => (t.phase, t.cnt, t.pc, memRead t.mem 0)) =
        some (.run, 0, 8#24, 0x84#8) ∧
      seen (step (waiting 0 p1Memory [.frameGo 0x8421#16])) (fun t => (t.phase, t.cnt, t.pc, memRead t.mem 0)) =
        some (.idle, 0, 8#24, 0x84#8) := by decide

theorem witness_ResetThenStepRunsTheFirstInstruction :
    ∃ (s : State) (keys : Half) (rest : List HostMove), s.phase = .idle ∧ s.host = .frameGo keys :: rest ∧
      0 < s.params.nSteps ∧ s.params.jumpAfterCopy = false :=
  ⟨waiting 1 p1Memory [.frameGo 0x8421#16], 0x8421#16, [], by decide⟩

/-- The last step of a budget and the one before it. -/
theorem witness_EveryStepCountsAsOne :
    seen (step ((running [] 0#24).setCnt 65535)) (fun t => (t.cnt, t.phase)) = some (65536, .idle) ∧
      seen (step ((running [] 0#24).setCnt 65534)) (fun t => (t.cnt, t.phase)) = some (65535, .run) := by decide

/-- O1 and A1: outputs before and after the last step, at a frame start and on an idle core without a move. -/
theorem witness_OutputsAreSampledAtTheFrameEnd :
    seen (step ((running [(5, 3#8), (6, 0x12#8), (7, 0x34#8)] 0x100#24).setCnt 65535))
        (fun t => (t.gfxPage, t.audioReg)) = some (3#8, 0x1234#16) ∧
      seen (step ((running [(5, 3#8)] 0x100#24).setCnt 65534)) (·.gfxPage) = some 0#8 ∧
      seen (step (waiting 1 [(5, 3#8)] [.frameGo 0#16])) (fun t => (t.phase, t.gfxPage)) = some (.run, 0#8) ∧
      seen (step (waiting 1 [(5, 3#8)] [])) (·.gfxPage) = some 0#8 := by decide

theorem witness_IdleCoreHoldsAllState :
    (waiting 1 [(5, 3#8)] []).phase = .idle ∧ (waiting 1 [(5, 3#8)] []).host = [] := by decide

/-- S8. -/
theorem witness_FrameGoDuringAFrameHasNoEffect :
    frameGo 0xFFFF#16 (running [] 7#24) = running [] 7#24 ∧ ∃ t, step (running [] 7#24) = .next t :=
  ⟨by decide, _, rfl⟩

/-- The hypotheses of FrameRunsExactlyItsBudget, FrameOfStepsIsRunFrame and, with another program counter and count,
FramesAreIsolated, at the least budget and without one. -/
theorem witness_FrameRunsExactlyItsBudget :
    (waiting 1 p1Memory [.frameGo 1#16]).phase = .idle ∧
      (waiting 1 p1Memory [.frameGo 1#16]).host = .frameGo 1#16 :: [] ∧
      1 ≤ (waiting 1 p1Memory [.frameGo 1#16]).params.nSteps ∧
      (waiting 0 p1Memory [.frameGo 1#16]).phase = .idle ∧
      0 ≤ (waiting 0 p1Memory [.frameGo 1#16]).params.nSteps := by decide

theorem witness_FrameOfStepsIsRunFrame :
    stepMany 1 (waiting 0 p1Memory [.frameGo 0x8421#16]) = .next (runFrame 0x8421#16 (waiting 0 p1Memory [])) ∧
      seen (stepMany 2 (waiting 1 p1Memory [.frameGo 0x8421#16])) id =
        some (runFrame 0x8421#16 (waiting 1 p1Memory [])) :=
  ⟨rfl, by decide⟩

theorem witness_FramesAreIsolated :
    (let s := waiting 1 p1Memory [.frameGo 1#16];
      let s' := ((waiting 1 p1Memory [.frameGo 1#16, .load []]).setPc 0x42#24).setCnt 1;
      s ≠ s' ∧ s.phase = .idle ∧ s'.phase = .idle ∧ s.host = .frameGo 1#16 :: [] ∧
        s'.host = .frameGo 1#16 :: [.load []] ∧ s.mem = s'.mem ∧ s.params = s'.params ∧
        1 ≤ s.params.nSteps) := by decide

/-- The idle loop of P1 with two steps of its budget left. -/
theorem witness_IdleLoopOnlySpendsTheBudget :
    (let s := (running p1Memory 0x1A#24).setCnt 65534;
      s.phase = .run ∧ memRead3 s.mem s.pc.toNat = s.pc ∧ memRead3 s.mem (s.pc.toNat + 3) = s.pc ∧
        memRead3 s.mem (s.pc.toNat + 6) = s.pc ∧ s.cnt + 2 ≤ s.params.nSteps) := by decide

/-- L1 and L2. -/
theorem witness_LoadBuildsTheMachine :
    seen (step (waiting 1 [(9, 9#8)] [.load []])) (fun t => (t.mem, t.phase, t.cnt)) = some ([], .idle, 0) ∧
      seen (step (waiting 1 [(9, 9#8)] [.load [0xAA#8, 0xBB#8, 0#8, 0#8, 8#8]])) (·.mem) =
        some [(0, 0xAA#8), (1, 0xBB#8), (4, 8#8)] := by decide

/-- An invariant state of each phase, and the step it takes. -/
theorem witness_EveryStepKeepsTheInvariant :
    State.Inv (fetching 0x100 0x200 0x300 0x109 [(0x200, 0x5A#8)]) ∧ State.Inv (waiting 1 p1Memory [.frameGo 1#16]) ∧
      (∃ t, step (fetching 0x100 0x200 0x300 0x109 [(0x200, 0x5A#8)]) = .next t) ∧
      ∃ t, step (waiting 1 p1Memory [.frameGo 1#16]) = .next t :=
  ⟨by decide, by decide, ⟨_, rfl⟩, ⟨_, rfl⟩⟩

theorem witness_DutifulHostNeverStopsTheMachine :
    State.Inv (waiting 1 p1Memory [.load e1Image, .frameGo 1#16]) ∧
      State.HostDutiful (waiting 1 p1Memory [.load e1Image, .frameGo 1#16]) := by decide

theorem witness_ParametersNeverChange :
    ∃ t, stepMany 1 (waiting 1 p1Memory [.load e1Image]) = .next t := ⟨_, rfl⟩

/-- Keys 7 and 8, on both sides of the byte boundary. -/
theorem witness_KeyIsItsBitOfTheKeyboardRegister :
    keyHeld (keysRegister [(1, 0x80#8)]) 7 = true ∧ keyHeld (keysRegister [(0, 0x01#8)]) 8 = true ∧
      keyHeld (keysRegister [(0, 0x01#8)]) 7 = false := by decide

theorem witness_KeySetChangesOneKey :
    keyboardSet [(0, 1#8)] 7 true = [(0, 1#8), (1, 0x80#8)] ∧ keyboardSet [(1, 1#8)] 8 true = [(0, 1#8), (1, 1#8)] := by
  decide

theorem witness_PixelAddressIsPageThenRowThenColumn :
    (waiting 1 [] []).phase = .idle ∧
      renderPixel { waiting 1 [(0x010001, 0x84#8)] [] with gfxPage := 1#8 } 1#8 0#8 = some 0x84#8 := by decide

/-- The first and the last address of page 1, and their neighbours outside. -/
theorem witness_PlaneIsExactlyItsPixels :
    inPlane 1#8 0x010000#24 = true ∧ inPlane 1#8 0x01FFFF#24 = true ∧ inPlane 1#8 0x00FFFF#24 = false ∧
      inPlane 1#8 0x020000#24 = false ∧ pixelAddr 1#8 0#8 0#8 = pixelAddr 1#8 0#8 0#8 := by decide

end Sys2Proof.Tests
end

section
/-! PROOFS. The decoder in terms of whole fields, the fetched instruction as three memory reads, and a fetch that runs
into the pad (30_encoding.md R51, R52, R55). -/

namespace Sys2Proof.Machine

/-- The nine bytes of a word, grouped into its three fields (concatenation is associative, shown on the numbers because
the widths differ in form). -/
theorem instrWord_eq_fields (b0 b1 b2 b3 b4 b5 b6 b7 b8 : Byte) :
    instrWord b0 b1 b2 b3 b4 b5 b6 b7 b8 = be24 b0 b1 b2 ++ be24 b3 b4 b5 ++ be24 b6 b7 b8 := by
  apply BitVec.eq_of_toNat_eq
  simp only [instrWord, be24, BitVec.toNat_append, Nat.shiftLeft_or_distrib, ← Nat.shiftLeft_add, Nat.or_assoc]

/-- A word made of three fields decodes to these fields. -/
theorem decodeWord_fields (source destination jump : Addr) :
    decodeWord (source ++ destination ++ jump) = .bbj source destination jump := by
  have hs : (source ++ destination ++ jump).extractLsb' 48 24 = source := by
    rw [BitVec.extractLsb'_append_eq_of_le (by decide), BitVec.extractLsb'_append_eq_left]
  have hd : (source ++ destination ++ jump).extractLsb' 24 24 = destination := by
    rw [BitVec.extractLsb'_append_eq_of_le (by decide), BitVec.extractLsb'_append_eq_right]
  have hj : (source ++ destination ++ jump).extractLsb' 0 24 = jump := BitVec.extractLsb'_append_eq_right
  simp only [decodeWord, hs, hd, hj]

/-- The decoder of R51: any nine bytes are the BBJ of their three big-endian fields. -/
theorem decodeWord_instrWord (b0 b1 b2 b3 b4 b5 b6 b7 b8 : Byte) :
    decodeWord (instrWord b0 b1 b2 b3 b4 b5 b6 b7 b8) =
      .bbj (be24 b0 b1 b2) (be24 b3 b4 b5) (be24 b6 b7 b8) := by
  rw [instrWord_eq_fields, decodeWord_fields]

/-- The fetched instruction, its fields read from memory. -/
theorem fetchInstr_eq_bbj (s : State) :
    fetchInstr s =
      .bbj (memRead3 s.mem s.pc.toNat) (memRead3 s.mem (s.pc.toNat + 3)) (memRead3 s.mem (s.pc.toNat + 6)) :=
  decodeWord_instrWord ..

/-- Byte `k` of the fetch window is the byte at `pc + k`. -/
theorem fetchBytes_getElem? (s : State) (k : Nat) (hk : k ≤ 8) :
    (fetchBytes s)[k]? = some (memRead s.mem (s.pc.toNat + k)) := by
  interval_cases k <;> rfl

/-- Reading goes to memory below 2^24 and answers 0x00 from there on. -/
theorem memRead_eq_ite (m : Memory) (a : Nat) : memRead m a = if a < 16777216 then memRead m a else 0#8 := by
  split
  · rfl
  · exact memRead_above m a (by rw [memSize_eq]; omega)

/-- A field that starts in the pad, or above it, reads as 0. -/
theorem memRead3_above (m : Memory) (a : Nat) (h : Config.memSize ≤ a) : memRead3 m a = 0#24 := by
  simp only [memRead3, memRead_above m a h, memRead_above m (a + 1) (by omega), memRead_above m (a + 2) (by omega)]
  rfl

/-- A field that starts at the last address has one byte of memory, on top. -/
theorem memRead3_last (m : Memory) : memRead3 m 0xFFFFFF = be24 (memRead m 0xFFFFFF) 0#8 0#8 := by
  rw [memRead3, memRead_above m (0xFFFFFF + 1) (by decide), memRead_above m (0xFFFFFF + 2) (by decide)]

/-- At the last address only the top byte of `source` comes from memory. -/
theorem fetchInstr_last (s : State) (hpc : s.pc = 0xFFFFFF#24) :
    fetchInstr s = .bbj (be24 (memRead s.mem 0xFFFFFF) 0#8 0#8) 0#24 0#24 := by
  have hn : s.pc.toNat = 0xFFFFFF := by rw [hpc]; rfl
  rw [fetchInstr_eq_bbj, hn, memRead3_last, memRead3_above _ (0xFFFFFF + 3) (by decide),
    memRead3_above _ (0xFFFFFF + 6) (by decide)]

/-- Settles O7: the nine bytes are grouped into three fields, which decode to themselves. -/
theorem everyNineBytesAreOneBbj : Obligations.EveryNineBytesAreOneBbj := by
  intro b0 b1 b2 b3 b4 b5 b6 b7 b8 rest
  refine ⟨?_, rfl⟩
  rw [decode, decodeWord_instrWord]

/-- Settles O8: the fetch window is three `MemRead(·, 3)` in a row. -/
theorem fetchAssemblesTheThreeFields : Obligations.FetchAssemblesTheThreeFields :=
  fetchInstr_eq_bbj

/-- Settles O10: each byte of the window is a one-byte read, which the pad answers with 0x00. -/
theorem fetchPastTheTopReadsThePad : Obligations.FetchPastTheTopReadsThePad := by
  intro s
  refine ⟨fun k hk => ?_, fetchInstr_last s, fun h => ?_, fun h k hk => by omega⟩
  · rw [fetchBytes_getElem? s k hk, ← memRead_eq_ite]
  · have hlast : s.pc.toNat + 8 < 16777216 := h 8 (by omega)
    omega

end Sys2Proof.Machine
end

section
/-! PROOFS. A running step is the BBJ of R60's pseudocode, counted; and writing a byte back where it was read changes
nothing (40_copy_jump.md R60, R61). -/

namespace Sys2Proof.Machine

/-! ### Writing a byte back -/

/-- Writing back the byte that is there changes no byte. -/
theorem memRead_memWrite_memRead (m : Memory) (a b : Nat) : memRead (memWrite m a (memRead m a)) b = memRead m b := by
  by_cases hb : b = a
  · subst hb
    rw [memRead_memWrite, ite_self]
  · exact memRead_memWrite_ne m a b _ hb

/-- Canonical cells list no byte that an unlisted address reads as, so an address that reads as one is not there to be
taken off. -/
theorem cellsDrop_of_cellsRead_unlisted {m : Memory} {low a : Nat} (h : cellsWf low m = true)
    (hr : cellsRead m a = unlistedByte) : cellsDrop m a = m := by
  induction m generalizing low with
  | nil => rfl
  | cons c rest ih =>
    obtain ⟨k, w⟩ := c
    simp only [cellsWf, Bool.and_eq_true, decide_eq_true_eq] at h
    obtain ⟨⟨-, hw⟩, hrest⟩ := h
    by_cases hk : a = k
    · simp only [cellsRead, hk, if_true] at hr
      exact absurd hr hw
    · simp only [cellsRead, hk, if_false] at hr
      simp only [cellsDrop, hk, if_false, ih hrest hr]

/-- Canonical cells list each address in one place, so listing again the byte that is listed changes nothing. -/
theorem cellsPut_cellsRead {m : Memory} {low a : Nat} (h : cellsWf low m = true)
    (hr : cellsRead m a ≠ unlistedByte) : cellsPut m a (cellsRead m a) = m := by
  induction m generalizing low with
  | nil => exact absurd rfl hr
  | cons c rest ih =>
    obtain ⟨k, w⟩ := c
    simp only [cellsWf, Bool.and_eq_true] at h
    obtain ⟨-, hrest⟩ := h
    by_cases hk : a = k
    · simp only [cellsPut, cellsRead, hk, lt_irrefl, if_true, if_false]
    · simp only [cellsRead, hk, if_false] at hr
      have hlt : ¬ a < k := fun hak => hr (cellsRead_below rest (k + 1) a hrest (by omega))
      simp only [cellsPut, cellsRead, hlt, hk, if_false, ih hrest hr]

/-- Writing back the byte that is there leaves canonical memory the same data. -/
theorem memWrite_memRead {m : Memory} (a : Nat) (h : m.wf = true) : memWrite m a (memRead m a) = m := by
  unfold memWrite memRead
  split
  · split
    · exact cellsDrop_of_cellsRead_unlisted h ‹_›
    · exact cellsPut_cellsRead h ‹_›
  · rfl

/-- A field reads the same in two memories that agree on every byte. -/
theorem memRead3_congr {m m' : Memory} (h : ∀ a, memRead m a = memRead m' a) (a : Nat) :
    memRead3 m a = memRead3 m' a := by
  simp only [memRead3, h]

/-! ### The step of R60 -/

@[simp] theorem countStep_mem (s : State) : (countStep s).mem = s.mem := by
  obtain ⟨-, hmem, -⟩ := endIfSpent_frame (s.setCnt (s.cnt + 1))
  exact hmem

@[simp] theorem countStep_pc (s : State) : (countStep s).pc = s.pc := by
  obtain ⟨-, -, hpc, -⟩ := endIfSpent_frame (s.setCnt (s.cnt + 1))
  exact hpc

@[simp] theorem countStep_cnt (s : State) : (countStep s).cnt = s.cnt + 1 := by
  obtain ⟨-, -, -, hcnt, -⟩ := endIfSpent_frame (s.setCnt (s.cnt + 1))
  exact hcnt

theorem bbjStep_mem (s : State) :
    (bbjStep s).mem =
      memWrite s.mem (memRead3 s.mem (s.pc.toNat + 3)).toNat
        (memRead s.mem (memRead3 s.mem s.pc.toNat).toNat) :=
  copyAndJump_mem ..

theorem bbjStep_pc (s : State) :
    (bbjStep s).pc = memRead3 (if s.params.jumpAfterCopy then (bbjStep s).mem else s.mem) (s.pc.toNat + 6) := by
  rw [bbjStep, copyAndJump_pc]
  split <;> rfl

/-- A step of a running machine with budget left is one BBJ step of the pseudocode, counted. -/
theorem step_eq_countStep_bbjStep (s : State) (hp : s.phase = .run) (hc : s.cnt < s.params.nSteps) :
    step s = .next (countStep (bbjStep s)) :=
  step_run s hp hc (fetchInstr_eq_bbj s)

/-- The instruction neither reads nor writes `cnt` (40_copy_jump.md R60): whatever count it finds, it leaves, and does
the same otherwise. -/
theorem copyAndJump_setCnt (source destination jump : Addr) (s : State) (n : Nat) :
    copyAndJump source destination jump (s.setCnt n) = (copyAndJump source destination jump s).setCnt n := rfl

/-- The fetched instruction does the BBJ step of the pseudocode, under every count. -/
theorem exec_fetchInstr_setCnt (s : State) (n : Nat) :
    exec (fetchInstr s) (s.setCnt n) = .next ((bbjStep s).setCnt n) := by
  rw [fetchInstr_eq_bbj, exec_bbj, copyAndJump_setCnt, bbjStep]

/-- Settles O14: the step is the BBJ step of the pseudocode, whose one store is read back and leaves every other byte,
and which commutes with every change of the count. -/
theorem stepIsTheBbjPseudocode : Obligations.StepIsTheBbjPseudocode := by
  intro s hp hc horder
  refine ⟨countStep (bbjStep s), bbjStep s, step_eq_countStep_bbjStep s hp hc, ?_, fun a ha => ?_, ?_,
    countStep_cnt _, exec_fetchInstr_setCnt s, (countStep_mem _).symm, (countStep_pc _).symm⟩
  · rw [countStep_mem, bbjStep_mem, memRead_memWrite_same]
  · rw [countStep_mem, bbjStep_mem, memRead_memWrite_ne _ _ _ _ ha]
  · simp [bbjStep_pc, horder]

/-- Settles O15: the one store writes back the byte that is there, so no byte changes, and with it neither reading of
the jump field. -/
theorem selfCopyChangesNoByteAndJumps : Obligations.SelfCopyChangesNoByteAndJumps := by
  intro s hp hc hself
  have hmem : (bbjStep s).mem =
      memWrite s.mem (memRead3 s.mem s.pc.toNat).toNat (memRead s.mem (memRead3 s.mem s.pc.toNat).toNat) := by
    rw [bbjStep_mem, hself]
  have hbytes : ∀ a, memRead (bbjStep s).mem a = memRead s.mem a := fun a => by
    rw [hmem, memRead_memWrite_memRead]
  refine ⟨countStep (bbjStep s), step_eq_countStep_bbjStep s hp hc, ?_, fun a => ?_, fun hwf => ?_⟩
  · rw [countStep_pc, bbjStep_pc]
    split
    · exact memRead3_congr hbytes _
    · rfl
  · rw [countStep_mem, hbytes]
  · rw [countStep_mem, hmem, memWrite_memRead _ hwf]

end Sys2Proof.Machine
end

section
/-! PROOFS. Big-endian numbers, the keyboard register bit by bit, and pixel addresses (42_io_decoder.md R85 to R89). -/

namespace Sys2Proof.Machine

/-! ### Big-endian numbers -/

/-- A byte appended below a number moves that number up by a factor of 256. -/
theorem toNat_append_byte {n : Nat} (high : BitVec n) (low : Byte) :
    (high ++ low).toNat = high.toNat * 256 + low.toNat := by
  rw [BitVec.toNat_append, ← Nat.shiftLeft_add_eq_or_of_lt low.isLt, Nat.shiftLeft_eq]

theorem be16_toNat (high low : Byte) : (be16 high low).toNat = high.toNat * 256 + low.toNat :=
  toNat_append_byte high low

theorem be24_toNat (high middle low : Byte) :
    (be24 high middle low).toNat = high.toNat * 65536 + middle.toNat * 256 + low.toNat := by
  rw [be24, toNat_append_byte, toNat_append_byte]
  omega

/-- The two bytes of a 16-bit number, put together again. -/
theorem be16_extractLsb' (v : Half) : be16 (v.extractLsb' 8 8) (v.extractLsb' 0 8) = v := by
  rw [be16, BitVec.extractLsb'_append_extractLsb'_eq_extractLsb' (show 8 = 0 + 8 from rfl),
    BitVec.extractLsb'_eq_self]

/-- A 16-bit number written inside memory is read back (20_memory.md R35). -/
theorem memRead2_memWrite2 (m : Memory) (a : Nat) (v : Half) (h : a + 1 < Config.memSize) :
    memRead2 (memWrite2 m a v) a = v := by
  simp [memRead2, memRead_memWrite2 m a _ v h, be16_extractLsb']

/-! ### Keys as bits -/

theorem keyHeld_be16 (high low : Byte) (key : Fin 16) :
    keyHeld (be16 high low) key = if key.val ≤ 7 then low.getLsbD key.val else high.getLsbD (key.val - 8) := by
  simp only [keyHeld, be16, BitVec.getLsbD_append, Nat.lt_succ_iff]

theorem keyHeld_keyBit (key other : Fin 16) : keyHeld (keyBit key) other = decide (other = key) := by
  have hlt : key.val < 16 := key.isLt
  simp only [keyHeld, keyBit, ← BitVec.twoPow_eq, BitVec.getLsbD_twoPow, hlt, Fin.ext_iff, eq_comm, decide_true,
    Bool.true_and]

theorem keyHeld_or (keys keys' : Half) (key : Fin 16) :
    keyHeld (keys ||| keys') key = (keyHeld keys key || keyHeld keys' key) :=
  BitVec.getLsbD_or

theorem keyHeld_and_not (keys keys' : Half) (key : Fin 16) :
    keyHeld (keys &&& ~~~keys') key = (keyHeld keys key && !keyHeld keys' key) := by
  simp only [keyHeld, BitVec.getLsbD_and, BitVec.getLsbD_not, key.isLt, decide_true, Bool.true_and]

theorem keyHeld_keySet (keys : Half) (key other : Fin 16) (pressed : Bool) :
    keyHeld (keySet keys key pressed) other = if other = key then pressed else keyHeld keys other := by
  cases pressed with
  | true => by_cases h : other = key <;> simp [keySet, keyHeld_or, keyHeld_keyBit, h]
  | false => by_cases h : other = key <;> simp [keySet, keyHeld_and_not, keyHeld_keyBit, h]

theorem keyHeld_keySet_ne (keys : Half) {key other : Fin 16} (pressed : Bool) (h : other ≠ key) :
    keyHeld (keySet keys key pressed) other = keyHeld keys other := by
  rw [keyHeld_keySet, if_neg h]

/-! ### The keyboard register in memory -/

theorem keysRegister_toNat (m : Memory) :
    (keysRegister m).toNat = (memRead m 0).toNat * 256 + (memRead m 1).toNat :=
  be16_toNat (memRead m 0) (memRead m 1)

theorem keyHeld_keysRegister (m : Memory) (key : Fin 16) :
    keyHeld (keysRegister m) key =
      if key.val ≤ 7 then (memRead m 1).getLsbD key.val else (memRead m 0).getLsbD (key.val - 8) :=
  keyHeld_be16 (memRead m 0) (memRead m 1) key

/-- Byte 1 is determined by keys 0 to 7. -/
theorem memRead_one_of_keyHeld {m m' : Memory}
    (h : ∀ key : Fin 16, key.val ≤ 7 → keyHeld (keysRegister m') key = keyHeld (keysRegister m) key) :
    memRead m' 1 = memRead m 1 := by
  refine BitVec.eq_of_getLsbD_eq fun i hi => ?_
  have hle : i ≤ 7 := by omega
  simpa [keyHeld_keysRegister, hle] using h ⟨i, by omega⟩ hle

/-- Byte 0 is determined by keys 8 to 15. -/
theorem memRead_zero_of_keyHeld {m m' : Memory}
    (h : ∀ key : Fin 16, 8 ≤ key.val → keyHeld (keysRegister m') key = keyHeld (keysRegister m) key) :
    memRead m' 0 = memRead m 0 := by
  refine BitVec.eq_of_getLsbD_eq fun i hi => ?_
  simpa [keyHeld_keysRegister] using h ⟨i + 8, by omega⟩ (Nat.le_add_left 8 i)

theorem keysRegister_keyboardSet (m : Memory) (key : Fin 16) (pressed : Bool) :
    keysRegister (keyboardSet m key pressed) = keySet (keysRegister m) key pressed :=
  memRead2_memWrite2 m Config.keyAddr _ (by decide)

theorem keysRegister_keyboardClearAll (m : Memory) : keysRegister (keyboardClearAll m) = keyClearAll :=
  memRead2_memWrite2 m Config.keyAddr _ (by decide)

/-- A write of the keyboard register leaves every byte from 2 on alone. -/
theorem memRead_memWrite2_keyAddr_above (m : Memory) (v : Half) {a : Nat} (h : 2 ≤ a) :
    memRead (memWrite2 m Config.keyAddr v) a = memRead m a := by
  have h0 : a ≠ Config.keyAddr := by rw [Config.keyAddr]; omega
  have h1 : a ≠ Config.keyAddr + 1 := by rw [Config.keyAddr]; omega
  rw [memRead_memWrite2 m Config.keyAddr a v (by decide), if_neg h0, if_neg h1]

/-- KEY_SET on memory can change only the byte its key is in: the keys of the other byte keep their bits. -/
theorem memRead_keyboardSet_ne (m : Memory) (key : Fin 16) (pressed : Bool) (a : Nat)
    (h : a ≠ if key.val ≤ 7 then 1 else 0) : memRead (keyboardSet m key pressed) a = memRead m a := by
  have hkeep (other : Fin 16) (hne : other ≠ key) :
      keyHeld (keysRegister (keyboardSet m key pressed)) other = keyHeld (keysRegister m) other := by
    rw [keysRegister_keyboardSet, keyHeld_keySet_ne _ _ hne]
  match a with
  | 0 =>
    have hkey : key.val ≤ 7 := by by_contra hk; simp [hk] at h
    exact memRead_zero_of_keyHeld fun other ho => hkeep other (by omega)
  | 1 =>
    have hkey : ¬ key.val ≤ 7 := fun hk => by simp [hk] at h
    exact memRead_one_of_keyHeld fun other ho => hkeep other (by omega)
  | a + 2 => exact memRead_memWrite2_keyAddr_above m _ (Nat.le_add_left 2 a)

/-- Settles O40: the register is the big-endian number of its two bytes, so its bits 0 to 7 are byte 1. -/
theorem keyIsItsBitOfTheKeyboardRegister : Obligations.KeyIsItsBitOfTheKeyboardRegister :=
  fun m key => ⟨keysRegister_toNat m, keyHeld_keysRegister m key⟩

/-- Settles O41: KEY_SET works on one bit of the register, and each byte is determined by its own eight keys. -/
theorem keySetChangesOneKey : Obligations.KeySetChangesOneKey :=
  ⟨keyHeld_keySet, fun m key pressed =>
    ⟨keysRegister_keyboardSet m key pressed, memRead_keyboardSet_ne m key pressed⟩⟩

/-- Settles O42: KEY_CLEAR_ALL is a two-byte write of zero at address 0. -/
theorem keyClearAllZeroesTheRegister : Obligations.KeyClearAllZeroesTheRegister := by
  intro m
  have hbyte (a : Nat) := memRead_memWrite2 m Config.keyAddr a keyClearAll (by decide)
  exact ⟨hbyte 0, hbyte 1, keysRegister_keyboardClearAll m, fun a ha => memRead_memWrite2_keyAddr_above m _ ha⟩

/-! ### Pixels -/

theorem pixelAddr_toNat (page x y : Byte) :
    (pixelAddr page x y).toNat = page.toNat * 65536 + y.toNat * 256 + x.toNat :=
  be24_toNat page y x

theorem hostRead_idle {s : State} (h : s.phase = .idle) (a : Addr) : hostRead s a = some (memRead s.mem a.toNat) := by
  rw [hostRead, h]

/-- Settles O44: a pixel address is a big-endian number, and the read port of an idle core answers the byte there. -/
theorem pixelAddressIsPageThenRowThenColumn : Obligations.PixelAddressIsPageThenRowThenColumn := by
  refine ⟨fun m x y => pixelAddr_toNat (planeBase m) x y, fun s x y hidle => ?_⟩
  rw [renderPixel, hostRead_idle hidle, pixelAddr_toNat]

end Sys2Proof.Machine
end

section
/-! PROOFS. Every instruction completes (60_exceptions.md R100). -/

namespace Sys2Proof.Machine

/-- Settles O20: every instruction is a BBJ, which copies and jumps on all operands, and a running step only counts
what its BBJ answers. -/
theorem noInstructionRaisesAnException : Obligations.NoInstructionRaisesAnException := by
  refine ⟨fun i s => ?_, fun s hp hc => ⟨_, step_eq_countStep_bbjStep s hp hc⟩⟩
  obtain ⟨source, destination, jump, -, hexec⟩ := exec_next i s
  exact ⟨_, hexec⟩

end Sys2Proof.Machine
end

section
/-! PROOFS. Encoding and decoding are inverse to each other (30_encoding.md R50 to R52). -/

namespace Sys2Proof

/-! ### The bytes of a field -/

/-- A field is the big-endian number of its three bytes. -/
theorem be24_extractLsb' (field : Addr) :
    be24 (field.extractLsb' 16 8) (field.extractLsb' 8 8) (field.extractLsb' 0 8) = field := by
  rw [be24, BitVec.extractLsb'_append_extractLsb'_eq_extractLsb' (show 16 = 8 + 8 from rfl),
    BitVec.extractLsb'_append_extractLsb'_eq_extractLsb' (show 8 = 0 + 8 from rfl), BitVec.extractLsb'_eq_self]

/-- The bytes of a big-endian number are the three it was made of. -/
theorem fieldBytes_be24 (high middle low : Byte) : fieldBytes (be24 high middle low) = [high, middle, low] := by
  have hhigh : (be24 high middle low).extractLsb' 16 8 = high := by
    rw [be24, BitVec.extractLsb'_append_eq_of_le (by decide), BitVec.extractLsb'_append_eq_left]
  have hmiddle : (be24 high middle low).extractLsb' 8 8 = middle := by
    rw [be24, BitVec.extractLsb'_append_eq_of_le (by decide), BitVec.extractLsb'_append_eq_right]
  have hlow : (be24 high middle low).extractLsb' 0 8 = low := BitVec.extractLsb'_append_eq_right
  rw [fieldBytes, hhigh, hmiddle, hlow]

/-- A big-endian number determines its three bytes. -/
theorem be24_inj {a b c a' b' c' : Byte} (h : be24 a b c = be24 a' b' c') : a = a' ∧ b = b' ∧ c = c' := by
  have hbytes : [a, b, c] = [a', b', c'] := by rw [← fieldBytes_be24, h, fieldBytes_be24]
  simpa using hbytes

/-! ### Both directions of the round trip -/

/-- Nine bytes in front of a list decode to the BBJ of their three big-endian fields. -/
theorem decode_nine (b0 b1 b2 b3 b4 b5 b6 b7 b8 : Byte) (rest : List Byte) :
    decode (b0 :: b1 :: b2 :: b3 :: b4 :: b5 :: b6 :: b7 :: b8 :: rest) =
      .ok (.bbj (be24 b0 b1 b2) (be24 b3 b4 b5) (be24 b6 b7 b8), rest) := by
  obtain ⟨hdecode, -⟩ := Machine.everyNineBytesAreOneBbj b0 b1 b2 b3 b4 b5 b6 b7 b8 rest
  exact hdecode

/-- What a list that decodes looks like: nine bytes, whose three fields are the instruction, and the rest. -/
theorem exists_nine_of_decode_ok {bytes rest : List Byte} {i : Instr} (h : decode bytes = .ok (i, rest)) :
    ∃ b0 b1 b2 b3 b4 b5 b6 b7 b8,
      bytes = b0 :: b1 :: b2 :: b3 :: b4 :: b5 :: b6 :: b7 :: b8 :: rest ∧
        i = .bbj (be24 b0 b1 b2) (be24 b3 b4 b5) (be24 b6 b7 b8) := by
  unfold decode at h
  split at h
  next b0 b1 b2 b3 b4 b5 b6 b7 b8 rest' =>
    obtain ⟨hi, hrest⟩ := Prod.mk.inj (Except.ok.inj h)
    refine ⟨b0, b1, b2, b3, b4, b5, b6, b7, b8, by rw [hrest], ?_⟩
    rw [← hi, Machine.decodeWord_instrWord]
  next => cases h

/-- Settles O5: the encoding is nine bytes, and each field is the big-endian number of its three. -/
theorem decodeInvertsEncode : Obligations.DecodeInvertsEncode := by
  intro i rest
  cases i with
  | bbj source destination jump =>
    change decode (_ :: _ :: _ :: _ :: _ :: _ :: _ :: _ :: _ :: rest) = _
    rw [decode_nine, be24_extractLsb', be24_extractLsb', be24_extractLsb']

/-- Settles O6: only a list of nine bytes and a rest decodes, and the bytes of its fields are these nine. -/
theorem encodeInvertsDecode : Obligations.EncodeInvertsDecode := by
  intro bytes rest i h
  obtain ⟨b0, b1, b2, b3, b4, b5, b6, b7, b8, rfl, rfl⟩ := exists_nine_of_decode_ok h
  simp only [encode, fieldBytes_be24]
  rfl

/-- Settles O9: each sample is nine bytes, so it decodes to its three big-endian fields, which are evaluated. -/
theorem wordsFromTheEncodingTableDecodeRight : Obligations.WordsFromTheEncodingTableDecodeRight := by
  refine ⟨?_, ?_, ?_⟩ <;> rw [decode_nine] <;> rfl

end Sys2Proof
end

section
/-! PROOFS. Memory: the pad, multi-byte reads and writes, and that the canonical form is determined by the bytes
(20_memory.md R31 to R37, 10_state.md R10). -/

namespace Sys2Proof.Machine

/-- A write above memory changes nothing (20_memory.md R31). -/
theorem memWrite_above (m : Memory) (a : Nat) (v : Byte) (h : Config.memSize ≤ a) : memWrite m a v = m := by
  rw [memWrite, if_neg (Nat.not_lt.mpr h)]

/-- A field none of whose bytes is written reads as before. -/
theorem memRead3_memWrite_outside (m : Memory) (a b : Nat) (v : Byte) (h : b < a ∨ a + 2 < b) :
    memRead3 (memWrite m b v) a = memRead3 m a := by
  rw [memRead3, memRead_memWrite_ne _ _ _ _ (by omega), memRead_memWrite_ne _ _ _ _ (by omega),
    memRead_memWrite_ne _ _ _ _ (by omega), memRead3]

/-- What canonical form says of a first cell: it lists an address of memory, not below the bound, and a byte an unlisted
address does not read as; the cells after it are canonical above it. -/
theorem cellsWf_cons {low k : Nat} {v : Byte} {rest : Memory} (h : cellsWf low ((k, v) :: rest) = true) :
    low ≤ k ∧ k < Config.memSize ∧ v ≠ unlistedByte ∧ cellsWf (k + 1) rest = true := by
  simp only [cellsWf, Bool.and_eq_true, decide_eq_true_eq] at h
  obtain ⟨⟨⟨hlow, hk⟩, hv⟩, hrest⟩ := h
  exact ⟨hlow, hk, hv, hrest⟩

theorem cellsRead_cons_same (k : Nat) (v : Byte) (rest : Memory) : cellsRead ((k, v) :: rest) k = v := by
  rw [cellsRead, if_pos rfl]

theorem cellsRead_cons_ne {a k : Nat} (v : Byte) (rest : Memory) (h : a ≠ k) :
    cellsRead ((k, v) :: rest) a = cellsRead rest a := by
  rw [cellsRead, if_neg h]

/-- Canonical cells that read like `(k, v) :: rest` list no address above `k` first: the byte at `k` would be missing. -/
theorem first_le_of_cellsRead_eq {low k k' : Nat} {v v' : Byte} {rest rest' : Memory}
    (h : cellsWf low ((k, v) :: rest) = true) (h' : cellsWf low ((k', v') :: rest') = true)
    (hread : ∀ a, a < Config.memSize → cellsRead ((k, v) :: rest) a = cellsRead ((k', v') :: rest') a) :
    k' ≤ k := by
  obtain ⟨-, hk, hv, -⟩ := cellsWf_cons h
  obtain ⟨-, -, -, hrest'⟩ := cellsWf_cons h'
  by_contra hlt
  refine hv ?_
  calc v = cellsRead ((k', v') :: rest') k := by rw [← hread k hk, cellsRead_cons_same]
    _ = cellsRead rest' k := cellsRead_cons_ne _ _ (by omega)
    _ = unlistedByte := cellsRead_below _ _ _ hrest' (by omega)

/-- Canonical cells that list something do not read like no cells at all. -/
theorem cellsRead_cons_ne_nil {low k : Nat} {v : Byte} {rest : Memory} (h : cellsWf low ((k, v) :: rest) = true) :
    ¬ ∀ a, a < Config.memSize → cellsRead ((k, v) :: rest) a = cellsRead [] a := by
  obtain ⟨-, hk, hv, -⟩ := cellsWf_cons h
  intro hread
  have hkread := hread k hk
  rw [cellsRead_cons_same] at hkread
  exact hv hkread

/-- Cells in canonical form are determined by what they read as: the first cell is at the least address with a listed
byte, and the rest are determined likewise. -/
theorem eq_of_cellsRead_eq {low : Nat} {m m' : Memory} (h : cellsWf low m = true) (h' : cellsWf low m' = true)
    (hread : ∀ a, a < Config.memSize → cellsRead m a = cellsRead m' a) : m = m' := by
  induction m generalizing low m' with
  | nil =>
    cases m' with
    | nil => rfl
    | cons c' rest' => exact absurd (fun a ha => (hread a ha).symm) (cellsRead_cons_ne_nil h')
  | cons c rest ih =>
    obtain ⟨k, v⟩ := c
    cases m' with
    | nil => exact absurd hread (cellsRead_cons_ne_nil h)
    | cons c' rest' =>
      obtain ⟨k', v'⟩ := c'
      obtain rfl : k = k' := Nat.le_antisymm
        (first_le_of_cellsRead_eq h' h fun a ha => (hread a ha).symm) (first_le_of_cellsRead_eq h h' hread)
      obtain ⟨-, hk, -, hrest⟩ := cellsWf_cons h
      obtain ⟨-, -, -, hrest'⟩ := cellsWf_cons h'
      have hv : v = v' := by simpa only [cellsRead_cons_same] using hread k hk
      have htail : rest = rest' := by
        refine ih hrest hrest' fun a ha => ?_
        by_cases hak : a = k
        · rw [cellsRead_below _ _ _ hrest (by omega), cellsRead_below _ _ _ hrest' (by omega)]
        · simpa only [cellsRead_cons_ne _ _ hak] using hread a ha
      rw [hv, htail]

theorem memRead_of_lt (m : Memory) {a : Nat} (h : a < Config.memSize) : memRead m a = cellsRead m a := by
  rw [memRead, if_pos h]

/-- Settles O1: reads and writes go to memory below 2^24 only. -/
theorem padReadsZeroAndIsNeverWritten : Obligations.PadReadsZeroAndIsNeverWritten :=
  fun m a v hlow _ => ⟨memRead_above m a hlow, memWrite_above m a v hlow⟩

/-- Settles O2: the reads put their bytes together with `be24` and `be16`. -/
theorem multiByteReadsAreBigEndian : Obligations.MultiByteReadsAreBigEndian :=
  fun _ _ => ⟨be24_toNat .., be16_toNat ..⟩

/-- Settles O3: the two halves are written to two addresses of memory and put together again by the read. -/
theorem twoByteWriteReadsBack : Obligations.TwoByteWriteReadsBack := by
  intro m a v ha
  refine ⟨memRead2_memWrite2 m a v ha, fun b hb hb' => ?_⟩
  rw [memRead_memWrite2 m a b v ha, if_neg hb, if_neg hb']

/-- Settles O4: below 2^24 a byte is what the cells read as, and canonical cells are determined by that. -/
theorem equalBytesAreEqualMemories : Obligations.EqualBytesAreEqualMemories := by
  intro m m' h h' hread
  refine eq_of_cellsRead_eq h h' fun a ha => ?_
  rw [← memRead_of_lt m ha, ← memRead_of_lt m' ha, hread a ha]

end Sys2Proof.Machine
end

section
/-! PROOFS. BBJ: what it copies, where it continues, and what it leaves unchanged (40_copy_jump.md R60 to R63,
20_memory.md R46). -/

namespace Sys2Proof.Machine

@[simp] theorem bbjStep_params (s : State) : (bbjStep s).params = s.params := rfl
@[simp] theorem bbjStep_phase (s : State) : (bbjStep s).phase = s.phase := rfl
@[simp] theorem bbjStep_cnt (s : State) : (bbjStep s).cnt = s.cnt := rfl
@[simp] theorem bbjStep_gfxPage (s : State) : (bbjStep s).gfxPage = s.gfxPage := rfl
@[simp] theorem bbjStep_audioReg (s : State) : (bbjStep s).audioReg = s.audioReg := rfl
@[simp] theorem bbjStep_host (s : State) : (bbjStep s).host = s.host := rfl
@[simp] theorem bbjStep_loads (s : State) : (bbjStep s).loads = s.loads := rfl

/-- What every byte is after a BBJ step. -/
theorem memRead_bbjStep (s : State) (a : Nat) :
    memRead (bbjStep s).mem a =
      if a = (memRead3 s.mem (s.pc.toNat + 3)).toNat then memRead s.mem (memRead3 s.mem s.pc.toNat).toNat
      else memRead s.mem a := by
  simp only [bbjStep_mem, memRead_memWrite, addr_lt_memSize, and_true]

theorem bbjStep_wf {s : State} (h : s.mem.wf = true) : Memory.wf (bbjStep s).mem = true :=
  copyAndJump_wf _ _ _ _ h

/-- With the default order a BBJ step continues at its own jump field (40_copy_jump.md R60). -/
theorem bbjStep_pc_default {s : State} (h : s.params.jumpAfterCopy = false) :
    (bbjStep s).pc = memRead3 s.mem (s.pc.toNat + 6) := by
  simp [bbjStep_pc, h]

/-- With JUMP_AFTER_COPY it continues at the field as stored (40_copy_jump.md R62). -/
theorem bbjStep_pc_late {s : State} (h : s.params.jumpAfterCopy = true) :
    (bbjStep s).pc = memRead3 (bbjStep s).mem (s.pc.toNat + 6) := by
  simp [bbjStep_pc, h]

/-- The order of jump read and write does not matter when memory holds the same jump field after the write. -/
theorem bbjStep_pc_of_field_kept {s : State}
    (h : memRead3 (bbjStep s).mem (s.pc.toNat + 6) = memRead3 s.mem (s.pc.toNat + 6)) :
    (bbjStep s).pc = memRead3 s.mem (s.pc.toNat + 6) := by
  cases horder : s.params.jumpAfterCopy with
  | false => exact bbjStep_pc_default horder
  | true => rw [bbjStep_pc_late horder, h]

/-- Settles O11: the bytes at `pc` decode to some BBJ, which is then the one fetched. -/
theorem stepRunsTheDecodedInstruction : Obligations.StepRunsTheDecodedInstruction := by
  intro s i hp hc hdecode
  have hfetch : decode (fetchBytes s) = .ok (fetchInstr s, []) := rfl
  obtain ⟨hi, -⟩ := Prod.mk.inj (Except.ok.inj (hfetch.symm.trans hdecode))
  obtain ⟨source, destination, jump, rfl, hexec⟩ := exec_next i s
  rw [hexec]
  exact step_run s hp hc hi

/-- Settles O12: the one store is read back, and the jump is read in the order the parameter says. -/
theorem bbjCopiesOneByteAndJumps : Obligations.BbjCopiesOneByteAndJumps := by
  intro source destination jump s
  refine ⟨copyAndJump source destination jump s, exec_bbj .., ?_, copyAndJump_pc ..⟩
  rw [copyAndJump_mem, memRead_memWrite_same]

/-- Settles O13: BBJ writes one byte of memory and the program counter. -/
theorem bbjFrame : Obligations.BbjFrame := by
  intro source destination jump s t h
  obtain rfl : copyAndJump source destination jump s = t := Host.Outcome.next.inj h
  refine ⟨fun a ha => ?_, rfl, rfl, rfl, rfl, rfl, rfl, rfl⟩
  rw [copyAndJump_mem, memRead_memWrite_ne _ _ _ _ ha]

/-- Settles O16: the two orders are the two cases of the jump read, which agree when the store misses the field. -/
theorem ownJumpFieldStore : Obligations.OwnJumpFieldStore := by
  intro s hp hc
  refine ⟨countStep (bbjStep s), step_eq_countStep_bbjStep s hp hc, ?_⟩
  rw [countStep_pc, countStep_mem]
  refine ⟨bbjStep_pc_default, bbjStep_pc_late, fun houtside => bbjStep_pc_of_field_kept ?_⟩
  rw [bbjStep_mem, memRead3_memWrite_outside]
  omega

/-- Settles O17: the next fetch reads the memory the step left, nine bytes one by one. -/
theorem nextFetchSeesTheStore : Obligations.NextFetchSeesTheStore := by
  intro s hp hc
  refine ⟨countStep (bbjStep s), step_eq_countStep_bbjStep s hp hc, fun k hk => ?_⟩
  rw [fetchBytes_getElem? _ k hk, countStep_mem, memRead_bbjStep]

/-- Settles O18: at the last address `destination` and the jump field lie in the pad, so they are 0, before the write
and after it. -/
theorem stepAtTheTopOfMemory : Obligations.StepAtTheTopOfMemory := by
  intro s hp hc hpc
  have hn : s.pc.toNat = 0xFFFFFF := by rw [hpc]; rfl
  have hsource : memRead3 s.mem s.pc.toNat = be24 (memRead s.mem 0xFFFFFF) 0#8 0#8 := by rw [hn, memRead3_last]
  have hdestination : (memRead3 s.mem (s.pc.toNat + 3)).toNat = 0 := by
    rw [hn, memRead3_above _ (0xFFFFFF + 3) (by decide)]
    rfl
  have hjump (m : Memory) : memRead3 m (s.pc.toNat + 6) = 0#24 := by
    rw [hn, memRead3_above m (0xFFFFFF + 6) (by decide)]
  refine ⟨countStep (bbjStep s), step_eq_countStep_bbjStep s hp hc, ?_, ?_, fun a ha => ?_⟩
  · rw [countStep_pc, bbjStep_pc_of_field_kept (by rw [hjump, hjump]), hjump]
  · rw [countStep_mem, memRead_bbjStep, hdestination, if_pos rfl, hsource]
  · rw [countStep_mem, memRead_bbjStep, hdestination, if_neg ha]

theorem frameReset_pc (s : State) :
    (frameReset s).pc = be24 (memRead s.mem 2) (memRead s.mem 3) (memRead s.mem 4) := rfl

/-- Settles O19: the step's own jump field is read before its store, and FRAME_RESET reads the vector after it. -/
theorem storeToVecWaitsForTheNextFrame : Obligations.StoreToVecWaitsForTheNextFrame := by
  intro s hp hc horder k _ _ hk
  refine ⟨countStep (bbjStep s), step_eq_countStep_bbjStep s hp hc, ?_, ?_⟩
  · rw [countStep_pc, bbjStep_pc_default horder]
  · simp only [frameReset_pc, countStep_mem, memRead_bbjStep, hk, eq_comm]

/-- Settles O23: FRAME_RESET writes the big-endian number of the vector's bytes to the program counter. -/
theorem frameResetReloadsOnlyPc : Obligations.FrameResetReloadsOnlyPc :=
  fun _ => ⟨rfl, be24_toNat ..⟩

end Sys2Proof.Machine
end

section
/-! PROOFS. One step by phase and host move, and what every step keeps: the parameters, the invariant, and the host's
duty (41_frame_sequencer.md R71 to R82, 60_exceptions.md R100 to R103). -/

namespace Sys2Proof.Machine

/-! ### The frame start and the frame end -/

@[simp] theorem frameStart_params (keys : Half) (s : State) : (frameStart keys s).params = s.params := rfl
@[simp] theorem frameStart_phase (keys : Half) (s : State) : (frameStart keys s).phase = .run := rfl
@[simp] theorem frameStart_cnt (keys : Half) (s : State) : (frameStart keys s).cnt = 0 := rfl
@[simp] theorem frameStart_host (keys : Half) (s : State) : (frameStart keys s).host = s.host := rfl
@[simp] theorem frameStart_loads (keys : Half) (s : State) : (frameStart keys s).loads = s.loads := rfl
@[simp] theorem frameStart_gfxPage (keys : Half) (s : State) : (frameStart keys s).gfxPage = s.gfxPage := rfl
@[simp] theorem frameStart_audioReg (keys : Half) (s : State) : (frameStart keys s).audioReg = s.audioReg := rfl

@[simp] theorem frameEnd_gfxPage (s : State) : (frameEnd s).gfxPage = memRead s.mem 5 := rfl
@[simp] theorem frameEnd_audioReg (s : State) :
    (frameEnd s).audioReg = be16 (memRead s.mem 6) (memRead s.mem 7) := rfl

@[simp] theorem endIfSpent_params (s : State) : (endIfSpent s).params = s.params := by
  obtain ⟨hparams, -⟩ := endIfSpent_frame s
  exact hparams

@[simp] theorem endIfSpent_mem (s : State) : (endIfSpent s).mem = s.mem := by
  obtain ⟨-, hmem, -⟩ := endIfSpent_frame s
  exact hmem

@[simp] theorem endIfSpent_pc (s : State) : (endIfSpent s).pc = s.pc := by
  obtain ⟨-, -, hpc, -⟩ := endIfSpent_frame s
  exact hpc

@[simp] theorem endIfSpent_cnt (s : State) : (endIfSpent s).cnt = s.cnt := by
  obtain ⟨-, -, -, hcnt, -⟩ := endIfSpent_frame s
  exact hcnt

@[simp] theorem endIfSpent_host (s : State) : (endIfSpent s).host = s.host := by
  obtain ⟨-, -, -, -, hhost, -⟩ := endIfSpent_frame s
  exact hhost

@[simp] theorem endIfSpent_loads (s : State) : (endIfSpent s).loads = s.loads := by
  obtain ⟨-, -, -, -, -, hloads⟩ := endIfSpent_frame s
  exact hloads

/-- The divider either leaves a state with budget alone or ends the frame. -/
theorem endIfSpent_cases (s : State) :
    (s.cnt < s.params.nSteps ∧ endIfSpent s = s) ∨ (s.params.nSteps ≤ s.cnt ∧ endIfSpent s = frameEnd s) := by
  by_cases h : s.cnt < s.params.nSteps
  · exact .inl ⟨h, endIfSpent_left s h⟩
  · exact .inr ⟨by omega, endIfSpent_spent s (by omega)⟩

/-- After the divider a running machine runs exactly while budget is left. -/
theorem endIfSpent_phase_run_iff {s : State} (hp : s.phase = .run) :
    (endIfSpent s).phase = .run ↔ s.cnt < s.params.nSteps := by
  rcases endIfSpent_cases s with ⟨hc, he⟩ | ⟨hc, he⟩
  · simp [he, hp, hc]
  · simp [he, Nat.not_lt.mpr hc]

/-- The divider does not look at the host's moves. -/
theorem endIfSpent_setHost (s : State) (moves : List HostMove) :
    endIfSpent (s.setHost moves) = (endIfSpent s).setHost moves := by
  rcases endIfSpent_cases s with ⟨hc, he⟩ | ⟨hc, he⟩
  · rw [he, endIfSpent_left _ (by simpa using hc)]
  · rw [he, endIfSpent_spent _ (by simpa using hc)]
    rfl

/-- A counted step is the divider on the state with one more step counted. -/
theorem countStep_eq (s : State) : countStep s = endIfSpent (s.setCnt (s.cnt + 1)) := rfl

/-! ### The host's turn -/

theorem step_hold {s : State} (hp : s.phase = .idle) (hh : s.host = []) : step s = .next s := by
  rw [step_idle s hp, hostTurn, hh]

theorem step_frameGo {s : State} {keys : Half} {rest : List HostMove} (hp : s.phase = .idle)
    (hh : s.host = .frameGo keys :: rest) :
    step s = .next (endIfSpent (frameStart keys (s.setHost rest))) := by
  rw [step_idle s hp, hostTurn, hh]
  simp [frameGo, hp]

theorem step_load {s : State} {image : List Byte} {rest : List HostMove} (hp : s.phase = .idle)
    (hh : s.host = .load image :: rest) : step s = loadImage image (s.setHost rest) := by
  rw [step_idle s hp, hostTurn, hh]

/-- A running machine always answers a next state. -/
theorem step_of_run {s : State} (hp : s.phase = .run) : ∃ t, step s = .next t := by
  by_cases hc : s.cnt < s.params.nSteps
  · exact ⟨_, step_eq_countStep_bbjStep s hp hc⟩
  · exact ⟨_, step_spent s hp (by omega)⟩

/-- Every step answers a next state, but the LOAD of too large an image. -/
theorem step_next_or_imageTooLarge (s : State) :
    (∃ t, step s = .next t) ∨
      (s.phase = .idle ∧ ∃ image rest, s.host = .load image :: rest ∧ Config.memSize < image.length ∧
        step s = .fault (.imageTooLarge image.length)) := by
  cases hp : s.phase with
  | run => exact .inl (step_of_run hp)
  | idle =>
    match hh : s.host with
    | [] => exact .inl ⟨_, step_hold hp hh⟩
    | .frameGo keys :: rest => exact .inl ⟨_, step_frameGo hp hh⟩
    | .load image :: rest =>
      rcases loadImage_cases image (s.setHost rest) with ⟨-, hload⟩ | ⟨hlen, hload⟩
      · exact .inl ⟨_, (step_load hp hh).trans hload⟩
      · exact .inr ⟨rfl, image, rest, rfl, hlen, (step_load hp hh).trans hload⟩

theorem imageFits_iff {image : List Byte} : imageFits image = true ↔ image.length ≤ Config.memSize := decide_eq_true_iff

theorem step_load_too_large {s : State} {image : List Byte} {rest : List HostMove} (hp : s.phase = .idle)
    (hh : s.host = .load image :: rest) (hlen : Config.memSize < image.length) :
    step s = .fault (.imageTooLarge image.length) := by
  rcases loadImage_cases image (s.setHost rest) with ⟨hle, -⟩ | ⟨-, hload⟩
  · omega
  · exact (step_load hp hh).trans hload

theorem step_load_fits {s : State} {image : List Byte} {rest : List HostMove} (hp : s.phase = .idle)
    (hh : s.host = .load image :: rest) (hlen : image.length ≤ Config.memSize) :
    step s = .next (createdState image (s.setHost rest)) := by
  rcases loadImage_cases image (s.setHost rest) with ⟨-, hload⟩ | ⟨hlt, -⟩
  · exact (step_load hp hh).trans hload
  · omega

/-- Settles O21: the one step that answers no next state is the LOAD of too large an image, which faults. -/
theorem imageTooLargeIsTheOnlyStop : Obligations.ImageTooLargeIsTheOnlyStop := by
  intro s
  refine ⟨fun r => ⟨fun hfault => ?_, ?_⟩, fun r hrefused => ?_⟩
  · rcases step_next_or_imageTooLarge s with ⟨t, hnext⟩ | ⟨hp, image, rest, hh, hlen, hstop⟩
    · cases hnext.symm.trans hfault
    · exact ⟨hp, image, rest, hh, hlen, Host.Outcome.fault.inj (hfault.symm.trans hstop)⟩
  · rintro ⟨hp, image, rest, hh, hlen, rfl⟩
    exact step_load_too_large hp hh hlen
  · rcases step_next_or_imageTooLarge s with ⟨t, hnext⟩ | ⟨-, image, rest, -, -, hstop⟩
    · cases hnext.symm.trans hrefused
    · cases hstop.symm.trans hrefused

/-- The inversion of a step that answers a next state, with the running step as the BBJ step of the pseudocode. -/
theorem step_cases_bbjStep {s t : State} (h : step s = .next t) :
    (s.phase = .run ∧ s.cnt < s.params.nSteps ∧ t = countStep (bbjStep s)) ∨
    (s.phase = .run ∧ s.params.nSteps ≤ s.cnt ∧ t = frameEnd s) ∨
    (s.phase = .idle ∧ s.host = [] ∧ t = s) ∨
    (s.phase = .idle ∧ ∃ keys rest, s.host = .frameGo keys :: rest ∧
      t = endIfSpent (frameStart keys (s.setHost rest))) ∨
    (s.phase = .idle ∧ ∃ image rest, s.host = .load image :: rest ∧ image.length ≤ Config.memSize ∧
      t = createdState image (s.setHost rest)) := by
  rcases step_cases h with ⟨hp, hc, -⟩ | hother
  · exact .inl ⟨hp, hc, Host.Outcome.next.inj (h.symm.trans (step_eq_countStep_bbjStep s hp hc))⟩
  · exact .inr hother

/-- Settles O22: the ways a step can go are the BBJ, whose jump is read in either order, the frame start and the LOAD;
the others keep the program counter. -/
theorem onlyBbjFrameStartAndLoadWritePc : Obligations.OnlyBbjFrameStartAndLoadWritePc := by
  intro s t h hpc
  rcases step_cases_bbjStep h with ⟨hp, hc, rfl⟩ | ⟨-, -, rfl⟩ | ⟨-, -, rfl⟩ | ⟨hp, keys, rest, hh, rfl⟩ |
    ⟨hp, image, rest, hh, -, -⟩
  · refine .inl ⟨hp, hc, ?_⟩
    rw [countStep_pc, countStep_mem, bbjStep_pc]
  · exact absurd (frameEnd_pc s) hpc
  · exact absurd rfl hpc
  · refine .inr (.inl ⟨hp, ⟨keys, rest, hh⟩, ?_⟩)
    rw [endIfSpent_pc, frameStart_pc]
    rfl
  · exact .inr (.inr ⟨hp, image, rest, hh⟩)

/-! ### Counting and sampling -/

/-- Settles O26: the step is counted, and the divider then ends the frame exactly when the count is the budget. -/
theorem everyStepCountsAsOne : Obligations.EveryStepCountsAsOne := by
  intro s hp hc
  refine ⟨countStep (bbjStep s), step_eq_countStep_bbjStep s hp hc, countStep_cnt _, ?_⟩
  rcases countStep_cases (bbjStep s) with ⟨hleft, he⟩ | ⟨hspent, he⟩
  · have hne : s.cnt + 1 ≠ s.params.nSteps := Nat.ne_of_lt hleft
    simp [he, hp, hne]
  · have heq : s.cnt + 1 = s.params.nSteps := Nat.le_antisymm hc hspent
    simp [he, heq]

/-- Settles O27: the outputs are written by the frame end, and by a LOAD, and by nothing else. -/
theorem outputsAreSampledAtTheFrameEnd : Obligations.OutputsAreSampledAtTheFrameEnd := by
  intro s t h
  rcases step_cases_bbjStep h with ⟨hp, -, rfl⟩ | ⟨hp, hc, rfl⟩ | ⟨hp, hh, rfl⟩ |
    ⟨hp, keys, rest, hh, rfl⟩ | ⟨hp, image, rest, hh, -, rfl⟩
  · rcases countStep_cases (bbjStep s) with ⟨hleft, he⟩ | ⟨hspent, he⟩
    · simp only [bbjStep_cnt, bbjStep_params] at hleft
      simp [he, hp, Nat.not_le.mpr hleft]
    · simp only [bbjStep_cnt, bbjStep_params] at hspent
      simp [he, hp, Nat.not_lt.mpr hspent]
  · have hnot : ¬ s.cnt + 1 < s.params.nSteps := by omega
    simp [hp, hnot]
  · simp [hp]
  · rcases endIfSpent_cases (frameStart keys (s.setHost rest)) with ⟨-, he⟩ | ⟨-, he⟩
    · rw [he]
      simp [hp, hh]
    · simp [he, hp, hh]
  · simp [hp, hh, createdState]

/-! ### What every step keeps -/

/-- Settles O28: an idle step without a move holds the state, and so do many. -/
theorem idleCoreHoldsAllState : Obligations.IdleCoreHoldsAllState := by
  intro s k hp hh
  induction k with
  | zero => rfl
  | succ k ih => rw [stepMany_succ k (step_hold hp hh), ih]

/-- A BBJ step does not look at the host's moves. -/
theorem bbjStep_setHost (s : State) (moves : List HostMove) :
    bbjStep (s.setHost moves) = (bbjStep s).setHost moves := rfl

/-- A running step does not look at the host's moves, nor touch them. -/
theorem step_setHost_of_run {s t : State} (moves : List HostMove) (hp : s.phase = .run) (h : step s = .next t) :
    t.host = s.host ∧ step (s.setHost moves) = .next (t.setHost moves) := by
  rcases step_cases_bbjStep h with ⟨-, hc, rfl⟩ | ⟨-, hspent, rfl⟩ | ⟨hidle, -⟩ | ⟨hidle, -⟩ | ⟨hidle, -⟩
  · refine ⟨by simp [countStep_eq], ?_⟩
    rw [step_eq_countStep_bbjStep (s.setHost moves) hp hc, bbjStep_setHost, countStep_eq, countStep_eq,
      ← endIfSpent_setHost]
    rfl
  · exact ⟨rfl, step_spent (s.setHost moves) hp hspent⟩
  all_goals exact absurd (hp.symm.trans hidle) (by decide)

/-- Settles O29: while running, `frame_go` does nothing and the step commutes with every replacement of the moves. -/
theorem frameGoDuringAFrameHasNoEffect : Obligations.FrameGoDuringAFrameHasNoEffect := by
  refine ⟨fun keys s hp => ?_, fun s t moves hp h => step_setHost_of_run moves hp h⟩
  rw [frameGo, hp]

theorem step_params {s t : State} (h : step s = .next t) : t.params = s.params := by
  rcases step_cases_bbjStep h with ⟨-, -, rfl⟩ | ⟨-, -, rfl⟩ | ⟨-, -, rfl⟩ |
    ⟨-, keys, rest, -, rfl⟩ | ⟨-, image, rest, -, -, rfl⟩
  · simp [countStep_eq]
  · rfl
  · rfl
  · simp
  · rfl

/-- Settles O39: no step changes the parameters, so no run does. -/
theorem parametersNeverChange : Obligations.ParametersNeverChange := by
  intro s t k h
  induction k generalizing s with
  | zero =>
    obtain rfl : s = t := Host.Outcome.next.inj h
    rfl
  | succ k ih =>
    obtain ⟨u, hu, hrest⟩ := stepMany_succ_inv k h
    rw [ih u hrest, step_params hu]

/-! ### The invariant -/

/-- The divider makes the invariant of its two other parts: with budget left the frame goes on, and without it ends. -/
theorem endIfSpent_inv {s : State} (hwf : s.mem.wf = true) (hc : s.cnt ≤ s.params.nSteps) : (endIfSpent s).Inv := by
  refine ⟨by rwa [endIfSpent_mem], by rwa [endIfSpent_cnt, endIfSpent_params], fun hrun => ?_⟩
  rw [endIfSpent_cnt, endIfSpent_params]
  rcases endIfSpent_cases s with ⟨hleft, -⟩ | ⟨-, he⟩
  · exact hleft
  · rw [he] at hrun
    cases hrun

theorem createdState_inv {image : List Byte} (s : State) (h : image.length ≤ Config.memSize) :
    (createdState image s).Inv :=
  ⟨imageCells_wf image (imageFits_iff.mpr h), Nat.zero_le _, nofun⟩

/-- Settles O36: no cell is listed, no step counted, and the core is idle. -/
theorem resetMeetsTheInvariant : Obligations.ResetMeetsTheInvariant :=
  fun _ _ => ⟨rfl, Nat.zero_le _, nofun⟩

/-- Settles O37: along the ways a step can go, each write keeps the canonical form, and the divider runs on only with
budget left. -/
theorem everyStepKeepsTheInvariant : Obligations.EveryStepKeepsTheInvariant := by
  rintro s t ⟨hwf, hle, hleft⟩ h
  rcases step_cases_bbjStep h with ⟨-, hc, rfl⟩ | ⟨hp, hspent, -⟩ | ⟨-, -, rfl⟩ |
    ⟨-, keys, rest, -, rfl⟩ | ⟨-, image, rest, -, hlen, rfl⟩
  · exact endIfSpent_inv (bbjStep_wf hwf) hc
  · exact absurd (hleft hp) (Nat.not_lt.mpr hspent)
  · exact ⟨hwf, hle, hleft⟩
  · exact endIfSpent_inv (frameStart_wf keys (s.setHost rest) hwf) (Nat.zero_le _)
  · exact createdState_inv _ hlen

/-! ### The host's duty -/

/-- A step takes at most moves from the front of the host's list. -/
theorem step_host_suffix {s t : State} (h : step s = .next t) : t.host <:+ s.host := by
  rcases step_cases_bbjStep h with ⟨-, -, rfl⟩ | ⟨-, -, rfl⟩ | ⟨-, -, rfl⟩ |
    ⟨-, keys, rest, hh, rfl⟩ | ⟨-, image, rest, hh, -, rfl⟩
  · simp [countStep_eq]
  · exact List.suffix_refl _
  · exact List.suffix_refl _
  · simp [hh]
  · rw [hh]
    exact List.suffix_cons _ rest

theorem step_hostDutiful {s t : State} (hd : s.HostDutiful) (h : step s = .next t) : t.HostDutiful := by
  rw [State.HostDutiful, List.all_eq_true] at hd ⊢
  exact fun move hmove => hd move ((step_host_suffix h).subset hmove)

/-- With a dutiful host a step answers a next state: the image of its next LOAD fits. -/
theorem step_of_hostDutiful {s : State} (hd : s.HostDutiful) : ∃ t, step s = .next t := by
  rcases step_next_or_imageTooLarge s with hnext | ⟨-, image, rest, hh, hlen, -⟩
  · exact hnext
  · have hfits : imageFits image = true := List.all_eq_true.mp hd (.load image) (by simp [hh])
    exact absurd (imageFits_iff.mp hfits) (Nat.not_le.mpr hlen)

/-- Settles O38: a step of an invariant state with a dutiful host answers one that is such a state again. -/
theorem dutifulHostNeverStopsTheMachine : Obligations.DutifulHostNeverStopsTheMachine := by
  intro s k hinv hd
  induction k generalizing s with
  | zero => exact ⟨s, rfl, hinv, hd⟩
  | succ k ih =>
    obtain ⟨u, hu⟩ := step_of_hostDutiful hd
    rw [stepMany_succ k hu]
    exact ih u (everyStepKeepsTheInvariant s u hinv hu) (step_hostDutiful hd hu)

end Sys2Proof.Machine
end

section
/-! PROOFS. A whole frame: the step machine runs the loop of RUN_FRAME, step by step (41_frame_sequencer.md R70 to R80,
70_reset_and_hazards.md R118). -/

namespace Sys2Proof.Machine

/-! ### The loop of RUN_FRAME -/

/-- One round of the loop: a BBJ step, then `cnt <- cnt + 1`. -/
def loopRound (s : State) : State := (bbjStep s).setCnt (s.cnt + 1)

@[simp] theorem loopRound_params (s : State) : (loopRound s).params = s.params := rfl
@[simp] theorem loopRound_mem (s : State) : (loopRound s).mem = (bbjStep s).mem := rfl
@[simp] theorem loopRound_pc (s : State) : (loopRound s).pc = (bbjStep s).pc := rfl
@[simp] theorem loopRound_phase (s : State) : (loopRound s).phase = s.phase := rfl
@[simp] theorem loopRound_cnt (s : State) : (loopRound s).cnt = s.cnt + 1 := rfl
@[simp] theorem loopRound_host (s : State) : (loopRound s).host = s.host := rfl

theorem runSteps_succ (left : Nat) (s : State) : runSteps (left + 1) s = runSteps left (loopRound s) := rfl

@[simp] theorem runSteps_params (k : Nat) (s : State) : (runSteps k s).params = s.params := by
  induction k generalizing s with
  | zero => rfl
  | succ k ih => rw [runSteps_succ, ih, loopRound_params]

@[simp] theorem runSteps_phase (k : Nat) (s : State) : (runSteps k s).phase = s.phase := by
  induction k generalizing s with
  | zero => rfl
  | succ k ih => rw [runSteps_succ, ih, loopRound_phase]

@[simp] theorem runSteps_host (k : Nat) (s : State) : (runSteps k s).host = s.host := by
  induction k generalizing s with
  | zero => rfl
  | succ k ih => rw [runSteps_succ, ih, loopRound_host]

@[simp] theorem runSteps_cnt (k : Nat) (s : State) : (runSteps k s).cnt = s.cnt + k := by
  induction k generalizing s with
  | zero => rfl
  | succ k ih =>
    rw [runSteps_succ, ih, loopRound_cnt]
    omega

/-- A step of a running machine with budget left is a round of the loop, followed by the divider. -/
theorem step_eq_endIfSpent_loopRound {s : State} (hp : s.phase = .run) (hc : s.cnt < s.params.nSteps) :
    step s = .next (endIfSpent (loopRound s)) :=
  step_eq_countStep_bbjStep s hp hc

/-- As long as the budget allows, the step machine answers the rounds of the loop, followed by the divider: between two
rounds the divider does nothing. -/
theorem stepMany_endIfSpent (k : Nat) {s : State} (hp : s.phase = .run) (hk : s.cnt + k ≤ s.params.nSteps) :
    stepMany k (endIfSpent s) = .next (endIfSpent (runSteps k s)) := by
  induction k generalizing s with
  | zero => rfl
  | succ k ih =>
    have hc : s.cnt < s.params.nSteps := by omega
    have hk' : (loopRound s).cnt + k ≤ (loopRound s).params.nSteps := by
      rw [loopRound_cnt, loopRound_params]
      omega
    rw [endIfSpent_left s hc, stepMany_succ k (step_eq_endIfSpent_loopRound hp hc), ih (s := loopRound s) hp hk',
      runSteps_succ]

/-! ### The frame start -/

/-- What every byte is after a frame start: bytes 0 and 1 hold the keys. -/
theorem memRead_frameStart (keys : Half) (s : State) (b : Nat) :
    memRead (frameStart keys s).mem b =
      if b = 0 then keys.extractLsb' 8 8 else if b = 1 then keys.extractLsb' 0 8 else memRead s.mem b :=
  memRead_keyLatch keys s b

theorem memRead_frameStart_above (keys : Half) (s : State) {b : Nat} (h : 2 ≤ b) :
    memRead (frameStart keys s).mem b = memRead s.mem b := by
  rw [memRead_frameStart, if_neg (by omega), if_neg (by omega)]

/-- A frame start and `k` steps of its budget: `k` rounds of the loop, and the divider. -/
theorem stepMany_frame {s : State} {keys : Half} {rest : List HostMove} (hp : s.phase = .idle)
    (hh : s.host = .frameGo keys :: rest) {k : Nat} (hk : k ≤ s.params.nSteps) :
    stepMany (k + 1) s = .next (endIfSpent (runSteps k (frameStart keys (s.setHost rest)))) := by
  rw [stepMany_succ k (step_frameGo hp hh), stepMany_endIfSpent k rfl]
  simpa using hk

/-- Settles O30: the loop counts its rounds, and the divider runs on exactly while the count is below the budget. -/
theorem frameRunsExactlyItsBudget : Obligations.FrameRunsExactlyItsBudget := by
  intro s keys rest hp hh k hk
  refine ⟨_, stepMany_frame hp hh hk, by simp, ?_, by simp⟩
  rw [endIfSpent_phase_run_iff (by simp)]
  simp

/-- Settles O31: after `N_STEPS` rounds the budget is spent, so the divider is the frame end of RUN_FRAME. -/
theorem frameOfStepsIsRunFrame : Obligations.FrameOfStepsIsRunFrame := by
  intro s keys rest hp hh
  rw [stepMany_frame hp hh (Nat.le_refl _), endIfSpent_spent _ (by simp)]
  rfl

/-- Settles O24: the frame start writes the two keyboard bytes, the program counter and the count; the divider lets it
run with a budget and ends it without. -/
theorem frameStartLatchesKeysAndReloadsPc : Obligations.FrameStartLatchesKeysAndReloadsPc := by
  intro s keys rest hp hh
  refine ⟨_, step_frameGo hp hh, ?_, ?_, fun a ha => ?_, ?_, by simp, by simp, by simp, by simp,
    fun hpos => ?_, fun hzero => ?_⟩
  · rw [endIfSpent_mem, memRead_frameStart, if_pos rfl]
  · rw [endIfSpent_mem, memRead_frameStart, if_neg (by decide), if_pos rfl]
  · rw [endIfSpent_mem, memRead_frameStart_above _ _ ha, setHost_mem]
  · rw [endIfSpent_pc, frameStart_pc]
    rfl
  · rw [endIfSpent_left _ (by simpa using hpos)]
    exact ⟨rfl, rfl, rfl⟩
  · rw [endIfSpent_spent _ (by simp [hzero])]
    simp [memRead_frameStart]

/-- Settles O25: with a budget the frame start leaves the core running at the reset vector, and the next step is the BBJ
step there. -/
theorem resetThenStepRunsTheFirstInstruction : Obligations.ResetThenStepRunsTheFirstInstruction := by
  intro s keys rest hp hh hpos horder
  have hstart : step s = .next (frameStart keys (s.setHost rest)) := by
    rw [step_frameGo hp hh, endIfSpent_left _ (by simpa using hpos)]
  have hpc : (frameStart keys (s.setHost rest)).pc = memRead3 s.mem 2 := frameStart_pc keys (s.setHost rest)
  refine ⟨_, _, hstart, step_eq_countStep_bbjStep _ rfl (by simpa using hpos), ?_, ?_, fun a ha => ?_⟩
  · rw [countStep_pc, bbjStep_pc_default (by simpa using horder), hpc]
  · rw [countStep_mem, memRead_bbjStep, hpc, if_pos rfl]
  · rw [countStep_mem, memRead_bbjStep, hpc, if_neg ha]

/-! ### Frame isolation -/

/-- What a frame's course depends on: two states that agree in parameters, memory, program counter, count and phase.
Output registers, moves to come and the load counter may differ. -/
structure SameCourse (s s' : State) : Prop where
  params : s.params = s'.params
  mem : s.mem = s'.mem
  pc : s.pc = s'.pc
  cnt : s.cnt = s'.cnt
  phase : s.phase = s'.phase

theorem SameCourse.loopRound {s s' : State} (h : SameCourse s s') : SameCourse (loopRound s) (loopRound s') := by
  have hmem : (bbjStep s).mem = (bbjStep s').mem := by rw [bbjStep_mem, bbjStep_mem, h.mem, h.pc]
  refine ⟨h.params, hmem, ?_, congrArg (· + 1) h.cnt, h.phase⟩
  rw [loopRound_pc, loopRound_pc, bbjStep_pc, bbjStep_pc, hmem, h.params, h.mem, h.pc]

theorem SameCourse.runSteps {s s' : State} (h : SameCourse s s') (k : Nat) :
    SameCourse (runSteps k s) (runSteps k s') := by
  induction k generalizing s s' with
  | zero => exact h
  | succ k ih => exact ih h.loopRound

theorem SameCourse.endIfSpent {s s' : State} (h : SameCourse s s') : SameCourse (endIfSpent s) (endIfSpent s') := by
  rcases endIfSpent_cases s with ⟨hc, he⟩ | ⟨hc, he⟩ <;> rw [h.cnt, h.params] at hc
  · rw [he, endIfSpent_left s' hc]
    exact h
  · rw [he, endIfSpent_spent s' hc]
    exact ⟨h.params, h.mem, h.pc, h.cnt, rfl⟩

/-- A frame start makes the course depend on memory, parameters and keys only: it sets the rest. -/
theorem sameCourse_frameStart {s s' : State} (keys : Half) (hmem : s.mem = s'.mem) (hparams : s.params = s'.params) :
    SameCourse (frameStart keys s) (frameStart keys s') := by
  have hlatch : (keyLatch keys s).mem = (keyLatch keys s').mem := congrArg (memWrite2 · Config.keyAddr keys) hmem
  exact ⟨hparams, hlatch, congrArg resetVector hlatch, rfl, rfl⟩

/-- Settles O32: the frame start, every round of the loop and the divider keep two machines on the same course, and the
frame end samples the outputs from the memory they share. -/
theorem framesAreIsolated : Obligations.FramesAreIsolated := by
  intro s s' keys rest rest' hp hp' hh hh' hmem hparams k hk
  have hcourse := (sameCourse_frameStart keys (s := s.setHost rest) (s' := s'.setHost rest') hmem hparams).runSteps k
  have hend := hcourse.endIfSpent
  refine ⟨_, _, stepMany_frame hp hh hk, stepMany_frame hp' hh' (hparams ▸ hk), hend.mem, hend.pc, hend.cnt, hend.phase,
    fun hlast => ?_⟩
  rw [endIfSpent_spent _ (by simp [hlast]), endIfSpent_spent _ (by simp [hlast, hparams])]
  simp only [frameEnd_gfxPage, frameEnd_audioReg, hcourse.mem, and_self]

/-! ### The idle loop -/

/-- The instruction at the program counter copies the byte at its own address onto itself and jumps to itself. -/
structure State.AtIdleLoop (s : State) : Prop where
  source : memRead3 s.mem s.pc.toNat = s.pc
  destination : memRead3 s.mem (s.pc.toNat + 3) = s.pc
  jump : memRead3 s.mem (s.pc.toNat + 6) = s.pc

/-- An idle loop writes back the byte that is there. -/
theorem State.AtIdleLoop.memRead_bbjStep {s : State} (h : s.AtIdleLoop) (a : Nat) :
    memRead (bbjStep s).mem a = memRead s.mem a := by
  rw [bbjStep_mem, h.source, h.destination, memRead_memWrite_memRead]

theorem State.AtIdleLoop.bbjStep_pc {s : State} (h : s.AtIdleLoop) : (bbjStep s).pc = s.pc := by
  rw [bbjStep_pc_of_field_kept (memRead3_congr h.memRead_bbjStep _), h.jump]

theorem State.AtIdleLoop.loopRound {s : State} (h : s.AtIdleLoop) : (loopRound s).AtIdleLoop := by
  have hfield (a : Nat) : memRead3 (bbjStep s).mem a = memRead3 s.mem a := memRead3_congr h.memRead_bbjStep a
  constructor <;> rw [loopRound_mem, loopRound_pc, h.bbjStep_pc, hfield]
  · exact h.source
  · exact h.destination
  · exact h.jump

/-- Any number of rounds at an idle loop changes neither the program counter nor a byte. -/
theorem State.AtIdleLoop.runSteps {s : State} (h : s.AtIdleLoop) (k : Nat) :
    (runSteps k s).pc = s.pc ∧ ∀ a, memRead (runSteps k s).mem a = memRead s.mem a := by
  induction k generalizing s with
  | zero => exact ⟨rfl, fun _ => rfl⟩
  | succ k ih =>
    obtain ⟨hpc, hmem⟩ := ih h.loopRound
    refine ⟨?_, fun a => ?_⟩
    · rw [runSteps_succ, hpc, loopRound_pc, h.bbjStep_pc]
    · rw [runSteps_succ, hmem, loopRound_mem, h.memRead_bbjStep]

/-- Settles O33: the steps are rounds of the loop, which an idle loop leaves nothing to do but count. -/
theorem idleLoopOnlySpendsTheBudget : Obligations.IdleLoopOnlySpendsTheBudget := by
  intro s hp hsource hdestination hjump k hk
  cases k with
  | zero => exact ⟨s, rfl, rfl, rfl, fun _ => rfl⟩
  | succ k =>
    have hloop : s.AtIdleLoop := ⟨hsource, hdestination, hjump⟩
    obtain ⟨hpc, hmem⟩ := hloop.runSteps (k + 1)
    have hrun := stepMany_endIfSpent (k + 1) hp hk
    rw [endIfSpent_left s (by omega)] at hrun
    refine ⟨_, hrun, ?_, by rw [endIfSpent_cnt, runSteps_cnt], fun a => ?_⟩
    · rw [endIfSpent_pc, hpc]
    · rw [endIfSpent_mem, hmem]

end Sys2Proof.Machine
end

section
/-! PROOFS. LOAD and reset (70_reset_and_hazards.md R115, 10_state.md R24). -/

namespace Sys2Proof.Machine

/-- Settles O34: a LOAD of an image that fits creates the machine, whose memory is the image and zeros after it. -/
theorem loadBuildsTheMachine : Obligations.LoadBuildsTheMachine := by
  intro s image rest hp hh
  refine ⟨step_load_too_large hp hh, fun hlen => ⟨_, step_load_fits hp hh hlen, ?_⟩⟩
  have hread (a : Nat) : memRead (createdState image (s.setHost rest)).mem a = image.getD a 0#8 :=
    memRead_imageCells image (imageFits_iff.mpr hlen) a
  refine ⟨fun a ha => ?_, fun a ha => ?_, rfl, rfl, rfl, rfl⟩
  · rw [hread, List.getD_eq_getElem _ _ ha, List.getElem?_eq_getElem ha]
  · rw [hread, List.getD_eq_default _ _ ha]

/-- Settles O35: reset lists no cell, so every byte reads 0x00; the other fields are stated. -/
theorem resetStateIsTheLoadedEmptyImage : Obligations.ResetStateIsTheLoadedEmptyImage :=
  ⟨memRead_nil, rfl, rfl, rfl, rfl⟩

end Sys2Proof.Machine
end

section
/-! PROOFS. The keys a host presents, the plane of a page, and the read port (42_io_decoder.md R88 to R90,
20_memory.md R44). -/

namespace Sys2Proof.Machine

/-- Setting keys one after another adds exactly these to the keys that were held. -/
theorem keyHeld_foldl_keySet (held : List (Fin 16)) (keys : Half) (key : Fin 16) :
    keyHeld (held.foldl (fun acc k => keySet acc k true) keys) key = (decide (key ∈ held) || keyHeld keys key) := by
  induction held generalizing keys with
  | nil => simp
  | cons first rest ih =>
    rw [List.foldl_cons, ih, keyHeld_keySet]
    by_cases hfirst : key = first <;> simp [hfirst]

theorem keyHeld_keyClearAll (key : Fin 16) : keyHeld keyClearAll key = false := BitVec.getLsbD_zero

/-- Settles O43: setting adds the held keys to none. -/
theorem heldKeysAreExactlyTheSetBits : Obligations.HeldKeysAreExactlyTheSetBits := by
  intro held key
  rw [keysOfHeld, keyHeld_foldl_keySet, keyHeld_keyClearAll, Bool.or_false]

theorem inPlane_iff (page : Byte) (a : Addr) :
    inPlane page a = true ↔ page.toNat * 65536 ≤ a.toNat ∧ a.toNat < (page.toNat + 1) * 65536 := by
  rw [inPlane, Bool.and_eq_true, decide_eq_true_iff, decide_eq_true_iff]
  rfl

/-- The pixels of a page have their addresses in its plane: a row and a column are below 256. -/
theorem inPlane_pixelAddr (page x y : Byte) : inPlane page (pixelAddr page x y) = true := by
  have hx := x.isLt
  have hy := y.isLt
  rw [inPlane_iff, pixelAddr_toNat]
  omega

/-- Every address is that of the pixel its three bytes name. -/
theorem pixelAddr_extractLsb' (a : Addr) :
    pixelAddr (a.extractLsb' 16 8) (a.extractLsb' 0 8) (a.extractLsb' 8 8) = a := be24_extractLsb' a

/-- A page is determined by any address in its plane. -/
theorem page_eq_of_inPlane {page page' : Byte} {a : Addr} (h : inPlane page a = true) (h' : inPlane page' a = true) :
    page = page' := by
  rw [inPlane_iff] at h h'
  apply BitVec.eq_of_toNat_eq
  omega

/-- Settles O45: an address is a pixel of the page its top byte names, which is the only page whose plane it lies in; and
a big-endian number determines its bytes. -/
theorem planeIsExactlyItsPixels : Obligations.PlaneIsExactlyItsPixels := by
  refine ⟨fun page a => ⟨fun hplane => ?_, ?_⟩, fun page x y x' y' h => ?_⟩
  · have hown : inPlane (a.extractLsb' 16 8) a = true := by
      simpa only [pixelAddr_extractLsb'] using
        inPlane_pixelAddr (a.extractLsb' 16 8) (a.extractLsb' 0 8) (a.extractLsb' 8 8)
    refine ⟨a.extractLsb' 0 8, a.extractLsb' 8 8, ?_⟩
    rw [page_eq_of_inPlane hplane hown, pixelAddr_extractLsb']
  · rintro ⟨x, y, rfl⟩
    exact inPlane_pixelAddr page x y
  · obtain ⟨-, hy, hx⟩ := be24_inj h
    exact ⟨hx, hy⟩

/-- Settles O46: the read port, phase by phase. -/
theorem hostReadsOnlyTheIdleCore : Obligations.HostReadsOnlyTheIdleCore := by
  intro s a
  cases hp : s.phase with
  | idle => rw [hostRead_idle hp, if_pos rfl]
  | run => rw [hostRead, hp, if_neg (by decide)]

end Sys2Proof.Machine
end
